-- ==== Sys2Proof/Word.lean ====
section
/-! DEFINITION. The machine's value types: 64-bit words, 72-bit instruction words, bytes of a serialised program,
register numbers, and the bounds of `Int64` and `U64` (00_scope.md R8, R9; 10_state.md R20). -/

namespace Sys2Proof

/-- An `Int64` (R8): a register, memory word, address, literal or pc value. Its integer reading is `BitVec.toInt`. -/
abbrev Word := BitVec 64

/-- One byte of a serialised program (R62). -/
abbrev Byte := BitVec 8

/-- A 72-bit instruction word `{opc[7:0], opnd[63:0]}` (R62). -/
abbrev IWord := BitVec 72

/-- A general register index, 0 to 7 (R20). -/
abbrev Reg := Fin 8

/-- The least `Int64`, -2^63 (R8). -/
abbrev int64Min : Int := -9223372036854775808

/-- The greatest `Int64`, 2^63 - 1 (R8). -/
abbrev int64Max : Int := 9223372036854775807

/-- The greatest `U64`, 2^64 - 1 (R8). -/
abbrev u64Max : Nat := 18446744073709551615

/-- The greatest program length, 2^63 - 1 (R7, parameter `N`). -/
abbrev programMax : Nat := 9223372036854775807

end Sys2Proof
end

