-- ==== Sys2Proof/Syntax.lean ====
section
/-! DEFINITION. The 20 instructions (30_encoding.md R60, R61, R63), one constructor for each row of the opcode table.
A literal operand is an `Int64`, a register operand an index 0 to 7: an operand outside its shape cannot be written. -/

namespace Sys2Proof

/-- One instruction with its operand. -/
inductive Instr where
  /-- READ (R186) -/
  | read
  /-- WRITE (R187) -/
  | write
  /-- LOAD a (R120) -/
  | load (a : Word)
  /-- STORE a (R121) -/
  | store (a : Word)
  /-- RLOAD k (R122) -/
  | rload (k : Reg)
  /-- RSTORE k (R123) -/
  | rstore (k : Reg)
  /-- ADD k (R140) -/
  | add (k : Reg)
  /-- SUB k (R141) -/
  | sub (k : Reg)
  /-- SWP k (R142) -/
  | swp (k : Reg)
  /-- RST k (R160) -/
  | rst (k : Reg)
  /-- INC k (R161) -/
  | inc (k : Reg)
  /-- DEC k (R162) -/
  | dec (k : Reg)
  /-- SHL k (R163) -/
  | shl (k : Reg)
  /-- SHR k (R164) -/
  | shr (k : Reg)
  /-- JUMP t (R101) -/
  | jump (t : Word)
  /-- JPOS t (R102) -/
  | jpos (t : Word)
  /-- JZERO t (R103) -/
  | jzero (t : Word)
  /-- CALL t (R104) -/
  | call (t : Word)
  /-- RTRN (R105) -/
  | rtrn
  /-- HALT (R100) -/
  | halt
deriving DecidableEq, Repr

end Sys2Proof
end

