-- ==== Sys2Proof/Record.lean ====
section
/-! DEFINITION. The record form of an instruction, `{opcode, operand}` (30_encoding.md R60, R61), and what a program
store entry is: a 72-bit word or a record (R62, 70_reset_and_hazards.md R254). A record, unlike an `Instr`, can be ill-formed. -/

namespace Sys2Proof

/-- The 20 opcode tags, in the order of the opcode map (R60, R63). -/
inductive Opcode where
  | read
  | write
  | load
  | store
  | rload
  | rstore
  | add
  | sub
  | swp
  | rst
  | inc
  | dec
  | shl
  | shr
  | jump
  | jpos
  | jzero
  | call
  | rtrn
  | halt
deriving DecidableEq, Repr

/-- The operand shapes `none`, `reg` and `lit` of R61. -/
inductive Shape where
  | noOperand
  | register
  | literal
deriving DecidableEq, Repr

/-- The operand field of a record: absent, a register index, or an integer literal (R60). The index may be any integer;
whether it lies in 0..7 is checked when the record is decoded (R65). -/
inductive Operand where
  | absent
  | reg (k : Int)
  | lit (v : Word)
deriving DecidableEq, Repr

/-- An instruction record (R60). -/
structure Record where
  opcode : Opcode
  operand : Operand
deriving DecidableEq, Repr

/-- One entry of the program store: the host supplies "N records or 72-bit words" (R254). -/
inductive ProgEntry where
  | word (w : IWord)
  | record (r : Record)
deriving DecidableEq, Repr

/-- The operand shape of each opcode (R61, R63). -/
def Opcode.shape : Opcode → Shape
  | .read | .write | .rtrn | .halt => .noOperand
  | .rload | .rstore | .add | .sub | .swp | .rst | .inc | .dec | .shl | .shr => .register
  | .load | .store | .jump | .jpos | .jzero | .call => .literal

/-- The record an instruction stands for (R60, R61). -/
def Instr.toRecord : Instr → Record
  | .read => ⟨.read, .absent⟩
  | .write => ⟨.write, .absent⟩
  | .load a => ⟨.load, .lit a⟩
  | .store a => ⟨.store, .lit a⟩
  | .rload k => ⟨.rload, .reg (k.val : Int)⟩
  | .rstore k => ⟨.rstore, .reg (k.val : Int)⟩
  | .add k => ⟨.add, .reg (k.val : Int)⟩
  | .sub k => ⟨.sub, .reg (k.val : Int)⟩
  | .swp k => ⟨.swp, .reg (k.val : Int)⟩
  | .rst k => ⟨.rst, .reg (k.val : Int)⟩
  | .inc k => ⟨.inc, .reg (k.val : Int)⟩
  | .dec k => ⟨.dec, .reg (k.val : Int)⟩
  | .shl k => ⟨.shl, .reg (k.val : Int)⟩
  | .shr k => ⟨.shr, .reg (k.val : Int)⟩
  | .jump t => ⟨.jump, .lit t⟩
  | .jpos t => ⟨.jpos, .lit t⟩
  | .jzero t => ⟨.jzero, .lit t⟩
  | .call t => ⟨.call, .lit t⟩
  | .rtrn => ⟨.rtrn, .absent⟩
  | .halt => ⟨.halt, .absent⟩

end Sys2Proof
end

