-- ==== Sys2Proof/WellFormed.lean ====
section
/-! DEFINITION. The checks that make a record, an instruction and a program well-formed (30_encoding.md R61, R65;
00_scope.md R7). Each is a Bool. An ill-formed record is no error by itself: it is a trap only when it is fetched (R65). -/

namespace Sys2Proof

/-- The operand has the shape its opcode asks for (R61). -/
def Record.shapeOk (r : Record) : Bool :=
  match r.opcode.shape, r.operand with
  | .noOperand, .absent => true
  | .register, .reg _ => true
  | .literal, .lit _ => true
  | _, _ => false

/-- A register operand names one of the eight registers (R65). -/
def Record.indexOk (r : Record) : Bool :=
  match r.operand with
  | .reg k => decide (0 ≤ k ∧ k < 8)
  | _ => true

/-- A record that decodes to an instruction (R61, R65). -/
def Record.wellFormed (r : Record) : Bool :=
  r.shapeOk && r.indexOk

/-- An instruction whose record is well-formed. `Instr` holds its operand in its type, so every instruction is. -/
def Instr.wellFormed (i : Instr) : Bool :=
  i.toRecord.wellFormed

/-- The bound on the program length, `0 <= N <= 2^63 - 1` (R7). -/
def programLengthOk (n : Nat) : Bool :=
  decide (n ≤ programMax)

end Sys2Proof
end

