-- ==== Sys2Proof/Decode.lean ====
section
/-! DEFINITION. Decoding and encoding (30_encoding.md R62 to R66): the 72-bit word, its nine bytes, and the record form.
Decoding is total: an instruction, or `illegal` with the reason by name. The encoder follows in the same file. -/

namespace Sys2Proof

/-- Why a word or a record is `Illegal` (R65). -/
inductive IllegalReason where
  /-- (a) `opc` in 0x14..0xFF -/
  | reservedOpcode
  /-- (b) a register index outside 0..7 -/
  | registerOutOfRange
  /-- (c) a non-zero operand field where the opcode has no operand -/
  | operandNotZero
  /-- a record whose operand does not have its opcode's shape -/
  | wrongShape
deriving DecidableEq, Repr

/-- The result of decoding: exactly one instruction, or `Illegal` (R66). -/
inductive Decoded where
  | ok (i : Instr)
  | illegal (why : IllegalReason)
deriving DecidableEq, Repr

/-- Why a byte sequence yields no instruction. -/
inductive DecodeError where
  /-- fewer than the nine bytes of one word (R62, R67) -/
  | truncated
  /-- nine bytes whose word is `Illegal` -/
  | illegal (why : IllegalReason)
deriving DecidableEq, Repr

/-- The opcode numbers of R63. -/
def Opcode.number : Opcode → Byte
  | .read => 0x00
  | .write => 0x01
  | .load => 0x02
  | .store => 0x03
  | .rload => 0x04
  | .rstore => 0x05
  | .add => 0x06
  | .sub => 0x07
  | .swp => 0x08
  | .rst => 0x09
  | .inc => 0x0A
  | .dec => 0x0B
  | .shl => 0x0C
  | .shr => 0x0D
  | .jump => 0x0E
  | .jpos => 0x0F
  | .jzero => 0x10
  | .call => 0x11
  | .rtrn => 0x12
  | .halt => 0x13

/-- The 20 opcodes in the order of their numbers (R63). -/
def Opcode.all : List Opcode :=
  [.read, .write, .load, .store, .rload, .rstore, .add, .sub, .swp, .rst,
   .inc, .dec, .shl, .shr, .jump, .jpos, .jzero, .call, .rtrn, .halt]

/-- The opcode of a number; none for the reserved numbers 0x14..0xFF (R63, R65). -/
def Opcode.ofNumber (b : Byte) : Option Opcode :=
  Opcode.all.find? (fun op => op.number == b)

/-- `opc = word[71:64]` (R62). -/
def opcField (w : IWord) : Byte :=
  w.extractLsb' 64 8

/-- `opnd = word[63:0]` (R62). -/
def opndField (w : IWord) : Word :=
  w.extractLsb' 0 64

/-- Operand assembly from the 64-bit field (R64). `sext_64` of a 64-bit field is the field itself. -/
def assembleOperand (sh : Shape) (opnd : Word) : Except IllegalReason Operand :=
  match sh with
  | .noOperand => if opnd = 0 then .ok .absent else .error .operandNotZero
  | .register =>
    if opnd.extractLsb' 3 61 = 0 then .ok (.reg ((opnd.extractLsb' 0 3).toNat : Int)) else .error .registerOutOfRange
  | .literal => .ok (.lit opnd)

/-- An instruction without an operand. -/
def decodeNoOperand (o : Operand) (i : Instr) : Decoded :=
  match o with
  | .absent => .ok i
  | _ => .illegal .wrongShape

/-- An instruction with a register operand; the index must lie in 0..7 (R65). -/
def decodeRegister (o : Operand) (mk : Reg → Instr) : Decoded :=
  match o with
  | .reg k => if h : 0 ≤ k ∧ k < 8 then .ok (mk ⟨k.toNat, by omega⟩) else .illegal .registerOutOfRange
  | _ => .illegal .wrongShape

/-- An instruction with a literal operand. -/
def decodeLiteral (o : Operand) (mk : Word → Instr) : Decoded :=
  match o with
  | .lit v => .ok (mk v)
  | _ => .illegal .wrongShape

/-- Decoding of the record form (R60, R61, R65). -/
def Record.decode (r : Record) : Decoded :=
  match r.opcode with
  | .read => decodeNoOperand r.operand .read
  | .write => decodeNoOperand r.operand .write
  | .load => decodeLiteral r.operand .load
  | .store => decodeLiteral r.operand .store
  | .rload => decodeRegister r.operand .rload
  | .rstore => decodeRegister r.operand .rstore
  | .add => decodeRegister r.operand .add
  | .sub => decodeRegister r.operand .sub
  | .swp => decodeRegister r.operand .swp
  | .rst => decodeRegister r.operand .rst
  | .inc => decodeRegister r.operand .inc
  | .dec => decodeRegister r.operand .dec
  | .shl => decodeRegister r.operand .shl
  | .shr => decodeRegister r.operand .shr
  | .jump => decodeLiteral r.operand .jump
  | .jpos => decodeLiteral r.operand .jpos
  | .jzero => decodeLiteral r.operand .jzero
  | .call => decodeLiteral r.operand .call
  | .rtrn => decodeNoOperand r.operand .rtrn
  | .halt => decodeNoOperand r.operand .halt

/-- `Decode(word)` of R66. -/
def decodeWord (w : IWord) : Decoded :=
  match Opcode.ofNumber (opcField w) with
  | none => .illegal .reservedOpcode
  | some op =>
    match assembleOperand op.shape (opndField w) with
    | .error why => .illegal why
    | .ok o => Record.decode ⟨op, o⟩

/-- Decoding of a fetched program store entry, word or record (R65, R66). -/
def ProgEntry.decode : ProgEntry → Decoded
  | .word w => decodeWord w
  | .record r => r.decode

/-- The word whose nine bytes are given, most significant first (R62). -/
def wordOfBytes (b0 b1 b2 b3 b4 b5 b6 b7 b8 : Byte) : IWord :=
  b0 ++ b1 ++ b2 ++ b3 ++ b4 ++ b5 ++ b6 ++ b7 ++ b8

/-- Decoding of a serialised program: the instruction of the first nine bytes, and the bytes after them (R62, R67). -/
def decodeBytes : List Byte → Except DecodeError (Instr × List Byte)
  | b0 :: b1 :: b2 :: b3 :: b4 :: b5 :: b6 :: b7 :: b8 :: rest =>
    match decodeWord (wordOfBytes b0 b1 b2 b3 b4 b5 b6 b7 b8) with
    | .ok i => .ok (i, rest)
    | .illegal why => .error (.illegal why)
  | _ => .error .truncated

/-! ### The encoder -/

/-- The 64-bit operand field of an operand (R64). -/
def Operand.field : Operand → Word
  | .absent => 0
  | .reg k => BitVec.ofInt 64 k
  | .lit v => v

/-- The word of a record, `{opc, opnd}` (R62, R63, R64). Meant for well-formed records. -/
def Record.encode (r : Record) : IWord :=
  r.opcode.number ++ r.operand.field

/-- The word of an instruction (R62 to R64). -/
def encode (i : Instr) : IWord :=
  i.toRecord.encode

/-- The nine bytes of a word, most significant first (R62). -/
def bytesOfWord (w : IWord) : List Byte :=
  [w.extractLsb' 64 8, w.extractLsb' 56 8, w.extractLsb' 48 8, w.extractLsb' 40 8, w.extractLsb' 32 8,
   w.extractLsb' 24 8, w.extractLsb' 16 8, w.extractLsb' 8 8, w.extractLsb' 0 8]

/-- The bytes of an instruction (R62). -/
def encodeBytes (i : Instr) : List Byte :=
  bytesOfWord (encode i)

/-! ### The opcode table's numbering -/

/-- The instruction word whose bits are `w`, numbered as spec/opcode_table.json numbers them: the table's word is the
72-bit word of R62 itself, bit 0 least significant; bits at and above `nbits` are 0 (log entry 18). -/
def tableWord (nbits w : Nat) : IWord :=
  BitVec.ofNat 72 (w % 2 ^ nbits)

/-- The instruction the decoder reads from the serialised bytes of a word of the opcode table. -/
def decodeTableWord (nbits w : Nat) : Option Instr :=
  match decodeBytes (bytesOfWord (tableWord nbits w)) with
  | .ok (i, _) => some i
  | .error _ => none

end Sys2Proof
end

