-- ==== Sys2Proof/Config.lean ====
section
/-! DEFINITION. The implementation parameters of 00_scope.md R7, their defaults, and the one free value of the spec
(45_io.md R183). The parameters are fixed for a run (10_state.md R36); a state carries them in its field `par`. -/

namespace Sys2Proof

/-- `OVERFLOW_MODE` (R7, R10): what a result outside `Int64` does. -/
inductive OverflowMode where
  | fault
  | wrap
deriving DecidableEq, Repr

/-- `INPUT_MODE` (R7, R180): what stands behind the input port. -/
inductive InputMode where
  | queue
  | mockZero
deriving DecidableEq, Repr

/-- `COST` (R7): one amount for each opcode that charges. HALT is not listed: it charges nothing (R26, R100). -/
structure CostTable where
  read : Nat
  write : Nat
  load : Nat
  store : Nat
  rload : Nat
  rstore : Nat
  add : Nat
  sub : Nat
  swp : Nat
  rst : Nat
  inc : Nat
  dec : Nat
  shl : Nat
  shr : Nat
  jump : Nat
  jpos : Nat
  jzero : Nat
  call : Nat
  rtrn : Nat
deriving DecidableEq, Repr

/-- The amounts the source states, the default of `COST` (R7). -/
def CostTable.source : CostTable where
  read := 100
  write := 100
  load := 50
  store := 50
  rload := 50
  rstore := 50
  add := 5
  sub := 5
  swp := 5
  rst := 1
  inc := 1
  dec := 1
  shl := 1
  shr := 1
  jump := 1
  jpos := 1
  jzero := 1
  call := 1
  rtrn := 1

/-- The parameters of R7 that are neither the program, nor `INPUT`, nor `INIT_REGS`. -/
structure Params where
  /-- `OVERFLOW_MODE` -/
  overflowMode : OverflowMode
  /-- `INPUT_MODE` -/
  inputMode : InputMode
  /-- `READ_OFF_BY_ONE` -/
  readOffByOne : Bool
  /-- `LOG_CAPACITY` -/
  logCapacity : Nat
  /-- `STEP_CEILING` -/
  stepCeiling : Option Nat
  /-- `COST` -/
  cost : CostTable
deriving DecidableEq, Repr

/-- The spec's default for every parameter that has one (R7), with `INPUT_MODE` as given. -/
def Params.default (mode : InputMode) : Params where
  overflowMode := .fault
  inputMode := mode
  readOffByOne := false
  logCapacity := 50
  stepCeiling := none
  cost := CostTable.source

/-- The free value of R183: what the extra READ returns when `READ_OFF_BY_ONE = true` ("any Int64 -- a draw").
No body: nothing can be proved of it. Applied to the state's counter of draws (log entry 5). DESIGN CHOICE, safe. -/
opaque Config.inputDraw : Nat → Word

end Sys2Proof
end

