-- ==== Sys2Proof/Machine/State.lean ====
section
/-! DEFINITION. The state of the core (10_state.md R20 to R36), of its host's session (60_exceptions.md section 4), the
reasons a step can stop, and the state after reset (70_reset_and_hazards.md R251). Plain data throughout. -/

namespace Sys2Proof.Machine

/-- The run state `rs` (R30). -/
inductive RunState where
  | ready
  | halted
  | trapped
deriving DecidableEq, Repr

/-- The five trap kinds (60_exceptions.md R205). -/
inductive TrapKind where
  | outOfBounds
  | inputExhausted
  | illegalInstruction
  | arithmeticOverflow
  | costOverflow
deriving DecidableEq, Repr

/-- The trap record `(kind, p)` (R31, R206). -/
structure TrapRecord where
  kind : TrapKind
  p : Word
deriving DecidableEq, Repr

/-- The cost meter, two `U64` counters (R26). -/
structure CostMeter where
  compute : BitVec 64
  io : BitVec 64
deriving DecidableEq, Repr

/-- The data memory, the partial map `mem` of materialized entries (20_memory.md R40, R43), as pairs of an address's
64-bit pattern and the word it holds. An address not listed is not materialized (log entry 6). -/
abbrev Memory := List (Nat × Word)

/-- The canonical form: addresses strictly rising, each below 2^64. Equal partial maps are then equal lists. -/
abbrev Memory.wf (m : Memory) : Prop :=
  (m.map Prod.fst).Pairwise (· < ·) ∧ ∀ c ∈ m, c.1 < 2 ^ 64

/-- One entry of the StepDriver's log (60_exceptions.md R239). -/
inductive LogEntry where
  /-- `Write(v)`, one per executed WRITE -/
  | write (v : Word)
  /-- `Trap(kind, p)`, one per trap -/
  | trap (r : TrapRecord)
  /-- `Unknown(cmd)`, one per rejected command (R242) -/
  | unknown (cmd : String)
  /-- `Refused`, one per refused step (R240) -/
  | refused
deriving DecidableEq, Repr

/-- The machine: the core's state, the fixed parameters of the run, and the host driver's own state. -/
structure State where
  /-- the general registers (R20) -/
  x : Vector Word 8
  /-- the program counter (R24) -/
  pc : Word
  /-- the cost meter (R26) -/
  cost : CostMeter
  /-- the materialized entries of data memory (R40, R43) -/
  mem : Memory
  /-- the input cursor (R32) -/
  icur : Nat
  /-- the run state (R30) -/
  rs : RunState
  /-- the trap record (R31) -/
  trap : Option TrapRecord
  /-- the values emitted on the output port in this run, oldest first (R34, R185) -/
  out : List Word
  /-- the program store, indices 0..N-1 (20_memory.md R45); fixed for the run (R36) -/
  prog : List ProgEntry
  /-- `INPUT` (45_io.md R181); fixed for the run (R36) -/
  input : List Word
  /-- the other parameters of 00_scope.md R7; fixed for the run (R36) -/
  par : Params
  /-- the StepDriver's log, oldest first (R239) -/
  log : List LogEntry
  /-- the session has ended by quit (R236, R241) -/
  ended : Bool
  /-- steps made in this run (R243) -/
  steps : Nat
  /-- the MODEL's own: how many free values this machine has drawn (log entry 5) -/
  draws : Nat
deriving DecidableEq, Repr

/-- Reasons to stop with a fault: none. Every trap of the spec is a next state with `rs = Trapped` (R206), so this
machine never faults (log entry 7; safe). -/
inductive Fault where
deriving DecidableEq, Repr

/-- Reasons a command is not taken. -/
inductive Refusal where
  /-- Raised by an arm of `exec` for an instruction without a meaning yet. No arm does. Safe. -/
  | notModelled (mnemonic : String)
  /-- Raised by `step` and the other session commands after quit: "no further command is accepted in it" (R241). Safe. -/
  | sessionEnded
  /-- Raised by `step` when `STEP_CEILING` steps of the run have been made and the core is still Ready: the host "makes
  no more" (R243). Safe. -/
  | stepCeiling
  /-- Raised by the reset command for a program longer than 2^63 - 1, which R7 does not admit. Safe. -/
  | programTooLong
deriving DecidableEq, Repr

/-- The state after `reset(program, INPUT_MODE, INPUT, INIT_REGS)` (R35, R251), with the remaining parameters in `par`. -/
def State.resetWith (prog : List ProgEntry) (input : List Word) (init : Vector Word 8) (par : Params) : State where
  x := init
  pc := 0
  cost := ⟨0, 0⟩
  mem := []
  icur := 0
  rs := .ready
  trap := none
  out := []
  prog := prog
  input := input
  par := par
  log := []
  ended := false
  steps := 0
  draws := 0

/-- The machine right after reset, with no program and no input loaded, every parameter at its default, `INPUT_MODE`
`mock_zero` and `INIT_REGS` all zero (log entries 1, 2, 3; DESIGN CHOICE, unsafe for a claim about this one state). -/
def State.reset : State :=
  State.resetWith [] [] (Vector.replicate 8 0) (Params.default .mockZero)

end Sys2Proof.Machine
end

