-- ==== Sys2Proof/Machine/Flags.lean ====
section
/-! DEFINITION. The core has no flags (10_state.md R28): no instruction sets or reads one. What stands in their place is
here: the conditions JPOS and JZERO test directly on r0, and the range check of a result, `checked()` (00_scope.md R10). -/

namespace Sys2Proof.Machine

/-- The condition of JPOS: `x[0] > 0`, signed (R102). -/
def isPositive (v : Word) : Bool :=
  decide (0 < v.toInt)

/-- The condition of JZERO: `x[0] == 0`, on all 64 bits (R103). -/
def isZero (v : Word) : Bool :=
  decide (v.toInt = 0)

/-- A mathematical integer is an `Int64` (R8). -/
abbrev inInt64 (v : Int) : Prop :=
  int64Min ≤ v ∧ v ≤ int64Max

/-- `wrap64(v) = ((v + 2^63) mod 2^64) - 2^63` (R9). -/
def wrap64 (v : Int) : Int :=
  (v + 2 ^ 63) % 2 ^ 64 - 2 ^ 63

/-- `checked(v)` (R10): a result outside `Int64` raises ArithmeticOverflow in mode fault and wraps in mode wrap. -/
def checked (mode : OverflowMode) (v : Int) : Except TrapKind Word :=
  if inInt64 v then .ok (BitVec.ofInt 64 v)
  else
    match mode with
    | .fault => .error .arithmeticOverflow
    | .wrap => .ok (BitVec.ofInt 64 (wrap64 v))

end Sys2Proof.Machine
end

