-- ==== Sys2Proof/Machine/Ops.lean ====
section
/-! DEFINITION. The state primitives of 00_scope.md R11, which every instruction's meaning is written with: registers,
data memory, program counter, cost meter, ports, fetch, and taking a trap (60_exceptions.md R206). -/

namespace Sys2Proof.Machine

/-! ### Data memory (20_memory.md) -/

/-- The entry of an address pattern, none where it is not materialized (R43). -/
def Memory.lookup : Memory → Nat → Option Word
  | [], _ => none
  | (k, v) :: rest, a => if a = k then some v else Memory.lookup rest a

/-- Set the entry of an address pattern, keeping the addresses rising. -/
def Memory.insert : Memory → Nat → Word → Memory
  | [], a, w => [(a, w)]
  | (k, v) :: rest, a, w =>
    if a < k then (a, w) :: (k, v) :: rest
    else if a = k then (a, w) :: rest
    else (k, v) :: Memory.insert rest a w

/-- What an address that is not materialized reads as: 0 (R41). -/
def unsetWord : Word := 0

/-- `MemRead(a, 1)` (R41). -/
def Memory.read (m : Memory) (a : Word) : Word :=
  (m.lookup a.toNat).getD unsetWord

/-- `MemWrite(a, 1, v)` (R42): the address becomes materialized, whatever the value. -/
def Memory.write (m : Memory) (a v : Word) : Memory :=
  m.insert a.toNat v

/-- The address has been written in this run (R43). -/
def Memory.materialized (m : Memory) (a : Word) : Bool :=
  (m.lookup a.toNat).isSome

/-! ### Registers, program counter and run state -/

/-- `x[k]` (R11, R20). -/
def State.reg (s : State) (k : Reg) : Word :=
  s.x.get k

/-- `x[k] <- v` (R11, R20). -/
def State.setReg (s : State) (k : Reg) (v : Word) : State :=
  { s with x := s.x.set k.val v k.isLt }

/-- `pc <- t` (R11, R24). -/
def State.setPc (s : State) (t : Word) : State :=
  { s with pc := t }

/-- `pc <- p0 + 1` (R24). It cannot overflow where 0 <= pc < N (R25). -/
def State.advance (s : State) : State :=
  s.setPc (s.pc + 1)

/-- `MemWrite` on the state (R42). -/
def State.memWrite (s : State) (a v : Word) : State :=
  { s with mem := s.mem.write a v }

/-- `halt` (R100): the run ends normally. -/
def State.halt (s : State) : State :=
  { s with rs := .halted }

/-! ### Traps -/

/-- TAKING A TRAP, `raise K(p)` (R206): `rs <- Trapped`, `trap <- (K, p)`, nothing else. Control goes nowhere (R209) and
there is no return from a trap (R210): only a reset leaves it. -/
def raise (kind : TrapKind) (p : Word) (s : State) : State :=
  { s with rs := .trapped, trap := some ⟨kind, p⟩ }

/-- The cause code of a trap kind (R205). -/
def TrapKind.code : TrapKind → Nat
  | .outOfBounds => 1
  | .inputExhausted => 2
  | .illegalInstruction => 3
  | .arithmeticOverflow => 4
  | .costOverflow => 5

/-- The end of an instruction that can raise: its writes together, or, where a check raised, the trap at this
instruction's own index with none of its writes (R12, R204). -/
def commit (s : State) (r : Except TrapKind State) : Host.Outcome State Fault Refusal :=
  match r with
  | .ok t => .next t
  | .error kind => .next (raise kind s.pc s)

/-! ### Cost meter -/

/-- The reported cost `compute + io`, an exact sum (R26). -/
def CostMeter.total (c : CostMeter) : Nat :=
  c.compute.toNat + c.io.toNat

/-- A charge of `c` keeps `compute + io` within a `U64` (R27). -/
abbrev State.chargeFits (s : State) (c : Nat) : Prop :=
  s.cost.total + c ≤ u64Max

/-- `cost.compute <- cost.compute + c`. -/
def State.addCompute (s : State) (c : Nat) : State :=
  { s with cost := { s.cost with compute := s.cost.compute + BitVec.ofNat 64 c } }

/-- `cost.io <- cost.io + c`. -/
def State.addIo (s : State) (c : Nat) : State :=
  { s with cost := { s.cost with io := s.cost.io + BitVec.ofNat 64 c } }

/-- `charge_compute(c)` (R27). -/
def State.chargeCompute (s : State) (c : Nat) : Except TrapKind State :=
  if s.chargeFits c then .ok (s.addCompute c) else .error .costOverflow

/-- `charge_io(c)` (R27). -/
def State.chargeIo (s : State) (c : Nat) : Except TrapKind State :=
  if s.chargeFits c then .ok (s.addIo c) else .error .costOverflow

/-! ### Ports (45_io.md) -/

/-- The next READ takes the extra value of the off-by-one defect (R182, R183): the third line of `InRead`. -/
def State.extraRead (s : State) : Bool :=
  s.par.readOffByOne && s.icur == s.input.length

/-- `InRead()` (R182). The extra value is the free value `Config.inputDraw`. -/
def State.inRead (s : State) : Except TrapKind Word :=
  match s.par.inputMode with
  | .mockZero => .ok 0
  | .queue =>
    match s.input[s.icur]? with
    | some v => .ok v
    | none => if s.extraRead then .ok (Config.inputDraw s.draws) else .error .inputExhausted

/-- READ's commit on the input side: `icur` advances in queue mode only (R182, R186); the model's counter of draws
advances with a draw (log entry 5). -/
def State.takeInput (s : State) : State :=
  match s.par.inputMode with
  | .mockZero => s
  | .queue => { s with icur := s.icur + 1, draws := if s.extraRead then s.draws + 1 else s.draws }

/-- `OutWrite(v)` (R185): one more event on the output port. -/
def State.outWrite (s : State) (v : Word) : State :=
  { s with out := s.out ++ [v] }

/-! ### Fetch and the bound of pc -/

/-- `0 <= pc < N` (R25). -/
abbrev State.inBounds (s : State) : Prop :=
  0 ≤ s.pc.toInt ∧ s.pc.toInt < s.prog.length

/-- The bound check before the fetch, and `Fetch(pc)` (R45, R201): none where pc is outside 0..N-1. -/
def State.fetch (s : State) : Option ProgEntry :=
  if 0 ≤ s.pc.toInt then s.prog[s.pc.toInt.toNat]? else none

/-- The bound check after the step (R203): the instruction's writes stay; not after HALT or a trap. -/
def State.boundCheck (s : State) : State :=
  if s.rs = .ready ∧ ¬ s.inBounds then raise .outOfBounds s.pc s else s

/-- Apply a function to the next state of an outcome, if there is one. -/
def mapNext (f : State → State) (o : Host.Outcome State Fault Refusal) : Host.Outcome State Fault Refusal :=
  match o with
  | .next s => .next (f s)
  | .fault r => .fault r
  | .refused r => .refused r

end Sys2Proof.Machine
end

