-- ==== Sys2Proof/Machine/Operands.lean ====
section
/-! DEFINITION. The operand forms of the spec: the implicit register r0 (10_state.md R21), the register operand (R20),
and the two effective addresses, direct and register-indirect (20_memory.md R44, 42_memory_transfer.md). -/

namespace Sys2Proof.Machine

/-- r0: accumulator, tested condition and link register (R21). -/
def r0 : Reg := 0

/-- The effective address of LOAD a and STORE a: the literal, no base, no offset, no scaling. -/
def directAddress (a : Word) (_s : State) : Word := a

/-- The effective address of RLOAD k and RSTORE k: `x[k]`, read at the start of the instruction. -/
def indirectAddress (k : Reg) (s : State) : Word := s.reg k

/-- The return address CALL leaves in r0: `p0 + 1`, the index after the CALL (R104). -/
def returnAddress (s : State) : Word := s.pc + 1

end Sys2Proof.Machine
end

