-- ==== Sys2Proof/Machine/Arithmetic.lean ====
section
/-! DEFINITION. The arithmetic family: ADD, SUB, SWP (43_arithmetic.md R140 to R143). Sums and differences are exact
integers, brought back by `checked` (00_scope.md R8, R10). -/

namespace Sys2Proof.Machine

/-- ADD k (R140). -/
def execAdd (k : Reg) (s : State) : Host.Outcome State Fault Refusal :=
  commit s do
    let v ← checked s.par.overflowMode ((s.reg r0).toInt + (s.reg k).toInt)
    let s1 ← s.chargeCompute s.par.cost.add
    pure ((s1.setReg r0 v).advance)

/-- SUB k (R141): the source's formula, `x[0] - min(x[k], x[0])`, signed minimum. -/
def execSub (k : Reg) (s : State) : Host.Outcome State Fault Refusal :=
  commit s do
    let m := min (s.reg k).toInt (s.reg r0).toInt
    let v ← checked s.par.overflowMode ((s.reg r0).toInt - m)
    let s1 ← s.chargeCompute s.par.cost.sub
    pure ((s1.setReg r0 v).advance)

/-- SWP k (R142). -/
def execSwp (k : Reg) (s : State) : Host.Outcome State Fault Refusal :=
  commit s do
    let a := s.reg r0
    let b := s.reg k
    let s1 ← s.chargeCompute s.par.cost.swp
    pure (((s1.setReg r0 b).setReg k a).advance)

end Sys2Proof.Machine
end

