-- ==== Sys2Proof/Machine/Control.lean ====
section
/-! DEFINITION. The control family: HALT, JUMP, JPOS, JZERO, CALL, RTRN (41_control.md R100 to R107). Targets are absolute
program indices; they are checked only by the bound check after the step (R107, R203). -/

namespace Sys2Proof.Machine

/-- HALT (R100): no charge, pc stays. -/
def execHalt (s : State) : Host.Outcome State Fault Refusal :=
  .next s.halt

/-- JUMP t (R101). -/
def execJump (t : Word) (s : State) : Host.Outcome State Fault Refusal :=
  commit s do
    let s1 ← s.chargeCompute s.par.cost.jump
    pure (s1.setPc t)

/-- The pc after a conditional jump: the target where the condition holds, else `p0 + 1` (R102, R103). -/
def branchTo (cond : Bool) (t : Word) (s : State) : State :=
  if cond then s.setPc t else s.advance

/-- JPOS t (R102). -/
def execJpos (t : Word) (s : State) : Host.Outcome State Fault Refusal :=
  commit s do
    let s1 ← s.chargeCompute s.par.cost.jpos
    pure (branchTo (isPositive (s.reg r0)) t s1)

/-- JZERO t (R103). -/
def execJzero (t : Word) (s : State) : Host.Outcome State Fault Refusal :=
  commit s do
    let s1 ← s.chargeCompute s.par.cost.jzero
    pure (branchTo (isZero (s.reg r0)) t s1)

/-- CALL t (R104): the link register is r0. -/
def execCall (t : Word) (s : State) : Host.Outcome State Fault Refusal :=
  commit s do
    let s1 ← s.chargeCompute s.par.cost.call
    pure ((s1.setReg r0 (returnAddress s)).setPc t)

/-- RTRN (R105): an unchecked jump to r0. -/
def execRtrn (s : State) : Host.Outcome State Fault Refusal :=
  commit s do
    let s1 ← s.chargeCompute s.par.cost.rtrn
    pure (s1.setPc (s.reg r0))

end Sys2Proof.Machine
end

