-- ==== Sys2Proof/Machine/Io.lean ====
section
/-! DEFINITION. The IO family: READ, WRITE (45_io.md R186, R187). -/

namespace Sys2Proof.Machine

/-- READ (R186). -/
def execRead (s : State) : Host.Outcome State Fault Refusal :=
  commit s do
    let v ← s.inRead
    let s1 ← s.chargeIo s.par.cost.read
    pure ((s1.setReg r0 v).takeInput.advance)

/-- WRITE (R187). -/
def execWrite (s : State) : Host.Outcome State Fault Refusal :=
  commit s do
    let s1 ← s.chargeIo s.par.cost.write
    pure ((s1.outWrite (s.reg r0)).advance)

end Sys2Proof.Machine
end

