-- ==== Sys2Proof/Machine/MemoryTransfer.lean ====
section
/-! DEFINITION. The memory-transfer family: LOAD, STORE, RLOAD, RSTORE (42_memory_transfer.md R120 to R123). -/

namespace Sys2Proof.Machine

/-- LOAD a (R120). -/
def execLoad (a : Word) (s : State) : Host.Outcome State Fault Refusal :=
  commit s do
    let v := s.mem.read (directAddress a s)
    let s1 ← s.chargeCompute s.par.cost.load
    pure ((s1.setReg r0 v).advance)

/-- STORE a (R121). -/
def execStore (a : Word) (s : State) : Host.Outcome State Fault Refusal :=
  commit s do
    let s1 ← s.chargeCompute s.par.cost.store
    pure ((s1.memWrite (directAddress a s) (s.reg r0)).advance)

/-- RLOAD k (R122). -/
def execRload (k : Reg) (s : State) : Host.Outcome State Fault Refusal :=
  commit s do
    let v := s.mem.read (indirectAddress k s)
    let s1 ← s.chargeCompute s.par.cost.rload
    pure ((s1.setReg r0 v).advance)

/-- RSTORE k (R123). -/
def execRstore (k : Reg) (s : State) : Host.Outcome State Fault Refusal :=
  commit s do
    let s1 ← s.chargeCompute s.par.cost.rstore
    pure ((s1.memWrite (indirectAddress k s) (s.reg r0)).advance)

end Sys2Proof.Machine
end

