-- ==== Sys2Proof/Machine/RegisterOnly.lean ====
section
/-! DEFINITION. The register-only family: RST, INC, DEC, SHL, SHR (44_register_only.md R160 to R164). -/

namespace Sys2Proof.Machine

/-- RST k (R160). -/
def execRst (k : Reg) (s : State) : Host.Outcome State Fault Refusal :=
  commit s do
    let s1 ← s.chargeCompute s.par.cost.rst
    pure ((s1.setReg k 0).advance)

/-- INC k (R161). -/
def execInc (k : Reg) (s : State) : Host.Outcome State Fault Refusal :=
  commit s do
    let v ← checked s.par.overflowMode ((s.reg k).toInt + 1)
    let s1 ← s.chargeCompute s.par.cost.inc
    pure ((s1.setReg k v).advance)

/-- The result of DEC: one less where positive, else unchanged (R162). -/
def decResult (v : Word) : Word :=
  if isPositive v then BitVec.ofInt 64 (v.toInt - 1) else v

/-- DEC k (R162). -/
def execDec (k : Reg) (s : State) : Host.Outcome State Fault Refusal :=
  commit s do
    let v := decResult (s.reg k)
    let s1 ← s.chargeCompute s.par.cost.dec
    pure ((s1.setReg k v).advance)

/-- SHL k (R163): exact doubling. -/
def execShl (k : Reg) (s : State) : Host.Outcome State Fault Refusal :=
  commit s do
    let v ← checked s.par.overflowMode (2 * (s.reg k).toInt)
    let s1 ← s.chargeCompute s.par.cost.shl
    pure ((s1.setReg k v).advance)

/-- The result of SHR: floor of half the value, the arithmetic shift by one (R164). -/
def shrResult (v : Word) : Word :=
  v.sshiftRight 1

/-- SHR k (R164). -/
def execShr (k : Reg) (s : State) : Host.Outcome State Fault Refusal :=
  commit s do
    let v := shrResult (s.reg k)
    let s1 ← s.chargeCompute s.par.cost.shr
    pure ((s1.setReg k v).advance)

end Sys2Proof.Machine
end

