-- ==== Sys2Proof/Machine/Dispatch.lean ====
section
/-! DEFINITION. `Execute(ins)` of 60_exceptions.md R200: one arm per instruction, one meaning per arm. -/

namespace Sys2Proof.Machine

def exec (i : Instr) (s : State) : Host.Outcome State Fault Refusal :=
  match i with
  | .read => Sys2Proof.Machine.execRead s
  | .write => Sys2Proof.Machine.execWrite s
  | .load a => Sys2Proof.Machine.execLoad a s
  | .store a => Sys2Proof.Machine.execStore a s
  | .rload k => Sys2Proof.Machine.execRload k s
  | .rstore k => Sys2Proof.Machine.execRstore k s
  | .add k => Sys2Proof.Machine.execAdd k s
  | .sub k => Sys2Proof.Machine.execSub k s
  | .swp k => Sys2Proof.Machine.execSwp k s
  | .rst k => Sys2Proof.Machine.execRst k s
  | .inc k => Sys2Proof.Machine.execInc k s
  | .dec k => Sys2Proof.Machine.execDec k s
  | .shl k => Sys2Proof.Machine.execShl k s
  | .shr k => Sys2Proof.Machine.execShr k s
  | .jump t => Sys2Proof.Machine.execJump t s
  | .jpos t => Sys2Proof.Machine.execJpos t s
  | .jzero t => Sys2Proof.Machine.execJzero t s
  | .call t => Sys2Proof.Machine.execCall t s
  | .rtrn => Sys2Proof.Machine.execRtrn s
  | .halt => Sys2Proof.Machine.execHalt s

end Sys2Proof.Machine
end

