-- ==== Sys2Proof/Machine/Session.lean ====
section
/-! DEFINITION. What the host's session adds around a step: the StepDriver's log (60_exceptions.md R237, R239, R240,
R242), the count of steps and the step ceiling (R243), and the end of the session by quit (R241). -/

namespace Sys2Proof.Machine

/-- The driver that runs the core keeps a log: the StepDriver, which is the one that runs it in `mock_zero` mode
(R180, R232, R237; log entry 11; DEDUCED). -/
def State.keepsLog (s : State) : Bool :=
  s.par.inputMode == .mockZero

/-- Append to a bounded log, evicting the oldest entries (R239). -/
def appendBounded (capacity : Nat) (log : List LogEntry) (e : LogEntry) : List LogEntry :=
  (log ++ [e]).drop (log.length + 1 - capacity)

/-- Log one entry, where a log is kept. -/
def State.pushLog (e : LogEntry) (s : State) : State :=
  if s.keepsLog then { s with log := appendBounded s.par.logCapacity s.log e } else s

/-- Log several entries in order. -/
def State.pushLogs (es : List LogEntry) (s : State) : State :=
  es.foldl (fun t e => t.pushLog e) s

/-- The log entry of a trapped state's trap (R237). -/
def State.trapEntry (s : State) : List LogEntry :=
  match s.rs, s.trap with
  | .trapped, some r => [.trap r]
  | _, _ => []

/-- The entries one step gives, from the state before it and the state after it: one `Write(v)` for each value emitted,
then one `Trap(kind, p)` if it trapped (R237, R239). -/
def stepEntries (before after : State) : List LogEntry :=
  (after.out.drop before.out.length).map LogEntry.write ++ after.trapEntry

/-- Log what one step did. -/
def State.logStep (before after : State) : State :=
  after.pushLogs (stepEntries before after)

/-- One more step made (R243): every step counts. -/
def State.countStep (s : State) : State :=
  { s with steps := s.steps + 1 }

/-- `STEP_CEILING` steps have been made (R243). -/
def State.ceilingReached (s : State) : Bool :=
  match s.par.stepCeiling with
  | none => false
  | some ceiling => decide (ceiling ≤ s.steps)

/-- The session ends; no core state changes (R241). -/
def State.endSession (s : State) : State :=
  { s with ended := true }

end Sys2Proof.Machine
end

