-- ==== Sys2Proof/Machine/Cycle.lean ====
section
/-! DEFINITION. The step cycle of 60_exceptions.md R200 to R203, the step command around it (R240, R241, R243), and how
an instruction is placed where the next step fetches it. -/

namespace Sys2Proof.Machine

/-- Execution of a decoded entry: an `Illegal` one raises IllegalInstruction (R202), an instruction runs and then the
bound of pc is checked (R203). -/
def runDecoded (d : Decoded) (s : State) : Host.Outcome State Fault Refusal :=
  match d with
  | .illegal _ => .next (raise .illegalInstruction s.pc s)
  | .ok i => mapNext State.boundCheck (exec i s)

/-- `Step()` of R200 from a state with `rs = Ready`: bound check, fetch, decode, execute, bound check. -/
def cycle (s : State) : Host.Outcome State Fault Refusal :=
  match s.fetch with
  | none => .next (raise .outOfBounds s.pc s)
  | some e => runDecoded e.decode s

/-- The step command in a session that has not ended: refused with a log entry when the run is over (R240), not made
when the step ceiling is reached (R243), else one counted and logged step. -/
def stepCommand (s : State) : Host.Outcome State Fault Refusal :=
  match s.rs with
  | .ready =>
    if s.ceilingReached then .refused .stepCeiling
    else mapNext (fun t => (State.logStep s t).countStep) (cycle s)
  | .halted => .next (s.pushLog .refused)
  | .trapped => .next (s.pushLog .refused)

/-- A command of a session is accepted only while the session has not ended (R241). -/
def whileInSession (command : State → Host.Outcome State Fault Refusal) (s : State) : Host.Outcome State Fault Refusal :=
  if s.ended then .refused .sessionEnded else command s

/-- The program with a word stored at pc: in place where pc addresses the program; otherwise the one-word program. -/
def programWith (s : State) (w : IWord) : List ProgEntry :=
  if s.inBounds then s.prog.set s.pc.toInt.toNat (.word w) else [.word w]

/-- A word placed where the next step fetches, and all that this takes: where pc does not address the program, the
one-word program is loaded and pc is its entry point 0; a run that is over is Ready again; the session is open; a step
ceiling of the run leaves room for a step (log entry 1). -/
def placeWord (s : State) (w : IWord) : State :=
  { s with
    prog := programWith s w
    pc := if s.inBounds then s.pc else 0
    rs := .ready
    trap := none
    ended := false
    steps := if s.ceilingReached then 0 else s.steps
    par := { s.par with stepCeiling := if s.par.stepCeiling = some 0 then none else s.par.stepCeiling } }

end Sys2Proof.Machine
end

