-- ==== Sys2Proof/Machine/Step.lean ====
section
/-! DEFINITION. One step of the machine, the host's `step()` command (60_exceptions.md R200, R240, R241, R243). -/

namespace Sys2Proof.Machine

/-- One `step()` command. From a Ready state it runs exactly one instruction (R200). -/
def step (s : State) : Host.Outcome State Fault Refusal :=
  whileInSession stepCommand s

/-- `s` with the instruction word `w` of the opcode table placed where the next step fetches it (log entry 1). -/
def State.withFetchWord (s : State) (nbits w : Nat) : State :=
  placeWord s (tableWord nbits w)

end Sys2Proof.Machine
end

