-- ==== Sys2Proof/Machine/Drivers.lean ====
section
/-! DEFINITION. The host interface of 60_exceptions.md section 4: reset, step, quit, unknown commands and the status read
(R230, R231, R241, R242), the StepDriver's snapshot (R238), and the BatchDriver with its result (R232 to R235, R243). -/

namespace Sys2Proof.Machine

/-- `reset(program, INPUT_MODE, INPUT, INIT_REGS)` given at any time (R230, R251, R253): a fresh run in a fresh session.
The parameters not named in the command stay; so does the model's counter of draws (log entry 5). A program longer than
R7 admits is refused (log entry 17). -/
def hostReset (prog : List ProgEntry) (mode : InputMode) (input : List Word) (init : Vector Word 8) (s : State) :
    Host.Outcome State Fault Refusal :=
  if programLengthOk prog.length then
    .next { State.resetWith prog input init { s.par with inputMode := mode } with draws := s.draws }
  else .refused .programTooLong

/-- The commands a host can give (R230, R236, R242). -/
inductive HostCommand where
  | reset (prog : List ProgEntry) (mode : InputMode) (input : List Word) (init : Vector Word 8)
  | step
  | quit
  | other (cmd : String)
deriving DecidableEq, Repr

/-- One host command. Each takes effect between two steps (R246). Quit ends the session and changes no core state
(R241); any other command is logged and changes no core state (R242). -/
def hostCommand (c : HostCommand) (s : State) : Host.Outcome State Fault Refusal :=
  match c with
  | .reset prog mode input init => hostReset prog mode input init s
  | .step => step s
  | .quit => whileInSession (fun t => .next t.endSession) s
  | .other cmd => whileInSession (fun t => .next (t.pushLog (.unknown cmd))) s

/-- The status the host can read between steps (R231). -/
structure Status where
  pc : Word
  x : Vector Word 8
  mem : Memory
  rs : RunState
  trap : Option TrapRecord
  cost : CostMeter
deriving DecidableEq, Repr

/-- The status read (R231). -/
def State.status (s : State) : Status :=
  ⟨s.pc, s.x, s.mem, s.rs, s.trap, s.cost⟩

/-- The StepDriver's result after every command (R238): the sparse snapshot lists exactly the materialized addresses. -/
structure Snapshot where
  pc : Word
  x : Vector Word 8
  mem : Memory
  log : List LogEntry
  rs : RunState
deriving DecidableEq, Repr

/-- The snapshot of a state (R238). -/
def State.snapshot (s : State) : Snapshot :=
  ⟨s.pc, s.x, s.mem, s.log, s.rs⟩

/-- What a batch result's failure-detail renders; its text is not given (R234). -/
inductive FailureDetail where
  /-- the empty detail of a success (R233) -/
  | empty
  /-- the trap record of a trapped run (R234) -/
  | trapped (r : Option TrapRecord)
  /-- the run was stopped by the step ceiling (R243) -/
  | stepCeiling
deriving DecidableEq, Repr

/-- The BatchDriver's result: cost (absent on failure), success, failure-detail (R233, R234). -/
structure BatchResult where
  cost : Option (BitVec 64)
  success : Bool
  detail : FailureDetail
deriving DecidableEq, Repr

/-- The result of a run that has ended (R233, R234, R243); none while it has not (R244). -/
def State.batchResult (s : State) : Option BatchResult :=
  match s.rs with
  | .halted => some ⟨some (s.cost.compute + s.cost.io), true, .empty⟩
  | .trapped => some ⟨none, false, .trapped s.trap⟩
  | .ready => if s.ceilingReached then some ⟨none, false, .stepCeiling⟩ else none

/-- The BatchDriver's loop: step while Ready and below the ceiling (R232), looked at for at most `fuel` steps. -/
def batchRun : Nat → State → State
  | 0, s => s
  | fuel + 1, s =>
    match s.batchResult with
    | some _ => s
    | none =>
      match step s with
      | .next t => batchRun fuel t
      | .fault _ => s
      | .refused _ => s

/-- One program of a batch with what its reset needs (R232, R235). -/
structure BatchJob where
  prog : List ProgEntry
  input : List Word
  init : Vector Word 8
deriving DecidableEq, Repr

/-- One program of a batch, run from its own reset on the core as it is: its result and the state the core is left in.
None where the run has not ended within `fuel` steps, or the reset was refused (log entry 16). -/
def runJob (fuel : Nat) (job : BatchJob) (s : State) : Option (BatchResult × State) :=
  match hostReset job.prog .queue job.input job.init s with
  | .next t => (batchRun fuel t).batchResult.map (fun r => (r, batchRun fuel t))
  | .fault _ => none
  | .refused _ => none

/-- A batch, strictly sequential, each program with its own reset on the one core (R213, R235): the results delivered, in
order, each run being looked at for `fuel` steps. The driver goes on to the next program only when a run has ended; at a
run that does not end it hangs, and neither that program nor any after it has a result (R244). -/
def runBatch (fuel : Nat) : List BatchJob → State → List BatchResult
  | [], _ => []
  | job :: jobs, s =>
    match runJob fuel job s with
    | none => []
    | some (r, t) => r :: runBatch fuel jobs t

end Sys2Proof.Machine
end

