-- ==== Sys2Proof/Safety.lean ====
section
/-! DEFINITION. What counts as a good state and a safe run: the invariant of every reachable state, and the words the
statements use for "this step runs that instruction" and "this state differs only in". -/

namespace Sys2Proof.Machine

/-- The trap record is there exactly when the run is Trapped (10_state.md R31). -/
abbrev State.trapConsistent (s : State) : Prop :=
  s.trap.isSome = true ↔ s.rs = .trapped

/-- `compute + io` fits a `U64` (R27). -/
abbrev State.costFits (s : State) : Prop :=
  s.cost.total ≤ u64Max

/-- READ has taken no more than the input holds, one more with the off-by-one defect (R182, R183). -/
abbrev State.cursorOk (s : State) : Prop :=
  s.icur ≤ s.input.length + (if s.par.readOffByOne then 1 else 0)

/-- The invariant: memory in canonical form, trap record consistent, cost within a `U64`, cursor within the input, log
within its capacity (R239), program length within its bound (R7). -/
abbrev State.Inv (s : State) : Prop :=
  s.mem.wf ∧ s.trapConsistent ∧ s.costFits ∧ s.cursorOk ∧ s.log.length ≤ s.par.logCapacity ∧
    s.prog.length ≤ programMax

/-- The next step command runs an instruction: session open, run Ready, step ceiling not reached. -/
abbrev State.canStep (s : State) : Prop :=
  s.ended = false ∧ s.rs = .ready ∧ s.ceilingReached = false

/-- The next step command runs the instruction `i`: the entry at pc decodes to it. -/
def State.runs (s : State) (i : Instr) : Prop :=
  s.canStep ∧ ∃ e, s.fetch = some e ∧ e.decode = .ok i

/-- A step is safe if it gives a next state in which the run has not trapped. -/
def safeStep (s : State) : Prop :=
  ∃ t, step s = .next t ∧ t.rs ≠ .trapped

/-- The core's part of a state: everything the spec's tuple of 10_state.md holds, with the output sequence. -/
structure CoreView where
  x : Vector Word 8
  pc : Word
  cost : CostMeter
  mem : Memory
  icur : Nat
  rs : RunState
  trap : Option TrapRecord
  out : List Word
deriving DecidableEq, Repr

/-- The core's part of a state. -/
def State.core (s : State) : CoreView :=
  ⟨s.x, s.pc, s.cost, s.mem, s.icur, s.rs, s.trap, s.out⟩

end Sys2Proof.Machine
end

