-- ==== Sys2Proof/Certificates/Slice0/Obligations.lean ====
section
/-! DEFINITION. The statements for the provers, one `def Obligations.<Name> : Prop` each, in the order of
OBLIGATIONS.json. The helper definitions before them say, once, the template every instruction rule of the spec follows
(41_control.md: operands, encoding, pseudocode, flags, cost, exceptions). -/

namespace Sys2Proof.Statements

open Sys2Proof.Machine

/-- The compute counter grew by exactly `c`, the io counter did not move. -/
def chargedCompute (s t : State) (c : Nat) : Prop :=
  t.cost.compute.toNat = s.cost.compute.toNat + c ∧ t.cost.io = s.cost.io

/-- The io counter grew by exactly `c`, the compute counter did not move. -/
def chargedIo (s t : State) (c : Nat) : Prop :=
  t.cost.io.toNat = s.cost.io.toNat + c ∧ t.cost.compute = s.cost.compute

/-- Every address reads as before and is materialized as before. -/
def keepsMemory (s t : State) : Prop :=
  ∀ b : Word, t.mem.read b = s.mem.read b ∧ t.mem.materialized b = s.mem.materialized b

/-- The one word at address `a` now holds `v` and is materialized; every other address is as before. -/
def storesAt (s t : State) (a v : Word) : Prop :=
  t.mem.read a = v ∧ t.mem.materialized a = true ∧
    ∀ b : Word, b ≠ a → t.mem.read b = s.mem.read b ∧ t.mem.materialized b = s.mem.materialized b

/-- Every register but `k` is as before. -/
def keepsRegsBut (s t : State) (k : Reg) : Prop :=
  ∀ j : Reg, j ≠ k → t.reg j = s.reg j

/-- `t` differs from `s` at most in the registers, the pc and the cost meter. -/
def onlyRegsPcCost (s t : State) : Prop :=
  t = { s with x := t.x, pc := t.pc, cost := t.cost }

/-- `t` differs from `s` at most in the pc and the cost meter. -/
def onlyPcCost (s t : State) : Prop :=
  t = { s with pc := t.pc, cost := t.cost }

/-- The end of the step that runs `i` (R203): where the instruction leaves the run Ready with pc outside 0..N-1, the core
keeps all the instruction wrote and is Trapped with `(OutOfBounds, pc)`; otherwise the core is as the instruction left it. -/
def afterStep (i : Instr) : Prop :=
  ∀ s t : State, s.runs i → exec i s = .next t →
    ∃ u, step s = .next u ∧
      u.core = (if t.rs = .ready ∧ ¬ t.inBounds then raise .outOfBounds t.pc t else t).core

/-- The instruction word `{opc, opnd}` of R62. -/
def wordOf (opc : Byte) (opnd : Word) : IWord := opc ++ opnd

/-- The 64-bit operand field that names register `k` (R64). -/
def regField (k : Reg) : Word := BitVec.ofNat 64 k.val

/-- The template of an instruction rule. The word decodes to `i`; the source's amount is `amount`; the step ends as R203
says; and from every state: where `blocked` names a trap the instruction takes it at its own index with no other effect;
where it does not and the charge does not fit, it takes CostOverflow so; and where neither holds it COMPLETES, answering a
next state that is charged and satisfies `post`. -/
def instrRule (i : Instr) (word : IWord) (charged : State → State → Nat → Prop) (price : CostTable → Nat) (amount : Nat)
    (blocked : State → Option TrapKind) (post : State → State → Prop) : Prop :=
  decodeWord word = .ok i ∧ price CostTable.source = amount ∧ afterStep i ∧
    ∀ s : State,
      (∀ kind, blocked s = some kind → exec i s = .next (raise kind s.pc s)) ∧
      (blocked s = none → ¬ s.chargeFits (price s.par.cost) → exec i s = .next (raise .costOverflow s.pc s)) ∧
      (blocked s = none → s.chargeFits (price s.par.cost) →
        ∃ t, exec i s = .next t ∧ charged s t (price s.par.cost) ∧ post s t)

/-- No check of the instruction's own can raise. -/
def neverBlocked (_s : State) : Option TrapKind := none

/-- A result outside `Int64` in mode fault (R10). -/
def overflowTrap (s : State) (v : Int) : Option TrapKind :=
  if s.par.overflowMode = .fault ∧ ¬ (-2 ^ 63 ≤ v ∧ v ≤ 2 ^ 63 - 1) then some .arithmeticOverflow else none

/-- SUB's overflow as R141 words it: `x[k] < x[0]` and `x[0] - x[k] > 2^63 - 1`, in mode fault. -/
def subTrap (k : Reg) (s : State) : Option TrapKind :=
  if s.par.overflowMode = .fault ∧ (s.reg k).toInt < (s.reg 0).toInt ∧
      (s.reg 0).toInt - (s.reg k).toInt > 2 ^ 63 - 1 then some .arithmeticOverflow else none

/-- SHL's overflow as R163 words it: `x[k] > 2^62 - 1` or `x[k] < -2^62`, in mode fault. -/
def shlTrap (k : Reg) (s : State) : Option TrapKind :=
  if s.par.overflowMode = .fault ∧ ((s.reg k).toInt > 2 ^ 62 - 1 ∨ (s.reg k).toInt < -2 ^ 62) then
    some .arithmeticOverflow else none

/-- No input left for READ: queue mode, and all L values taken (R183), or L + 1 READs made with the off-by-one defect. -/
def readTrap (s : State) : Option TrapKind :=
  if s.par.inputMode = .queue ∧ s.input.length + (if s.par.readOffByOne then 1 else 0) ≤ s.icur then
    some .inputExhausted else none

/-- The trap an instruction's own checks raise before any charge, if they do (R207, kinds 3 and 4). -/
def checkTrap (i : Instr) (s : State) : Option TrapKind :=
  match i with
  | .read => readTrap s
  | .add k => overflowTrap s ((s.reg 0).toInt + (s.reg k).toInt)
  | .sub k => subTrap k s
  | .inc k => overflowTrap s ((s.reg k).toInt + 1)
  | .shl k => shlTrap k s
  | _ => none

/-- The tabulated cost of an instruction (R26); HALT adds nothing. -/
def tabulated (i : Instr) (c : CostTable) : Nat :=
  match i with
  | .read => c.read
  | .write => c.write
  | .load _ => c.load
  | .store _ => c.store
  | .rload _ => c.rload
  | .rstore _ => c.rstore
  | .add _ => c.add
  | .sub _ => c.sub
  | .swp _ => c.swp
  | .rst _ => c.rst
  | .inc _ => c.inc
  | .dec _ => c.dec
  | .shl _ => c.shl
  | .shr _ => c.shr
  | .jump _ => c.jump
  | .jpos _ => c.jpos
  | .jzero _ => c.jzero
  | .call _ => c.call
  | .rtrn => c.rtrn
  | .halt => 0

/-- The first trap of the order of R207 that applies before any write: OutOfBounds at the fetch, IllegalInstruction, the
instruction's own check, CostOverflow. None where the instruction completes. -/
def firstTrap (s : State) : Option TrapKind :=
  match s.fetch with
  | none => some .outOfBounds
  | some e =>
    match e.decode with
    | .illegal _ => some .illegalInstruction
    | .ok i =>
      match checkTrap i s with
      | some kind => some kind
      | none => if i ≠ .halt ∧ ¬ s.chargeFits (tabulated i s.par.cost) then some .costOverflow else none

/-- The registers an instruction may write (the third column of R22). -/
def mayWrite (i : Instr) (j : Reg) : Prop :=
  match i with
  | .read | .load _ | .rload _ | .add _ | .sub _ | .call _ => j = 0
  | .swp k => j = 0 ∨ j = k
  | .rst k | .inc k | .dec k | .shl k | .shr k => j = k
  | .write | .store _ | .rstore _ | .jump _ | .jpos _ | .jzero _ | .rtrn | .halt => False

/-- The registers an instruction reads (the second column of R22). -/
def mayRead (i : Instr) (j : Reg) : Prop :=
  match i with
  | .write | .store _ | .jpos _ | .jzero _ | .rtrn => j = 0
  | .rload k | .inc k | .dec k | .shl k | .shr k => j = k
  | .rstore k | .add k | .sub k | .swp k => j = 0 ∨ j = k
  | .read | .load _ | .rst _ | .jump _ | .call _ | .halt => False

/-- The address an instruction stores to, computed as its meaning computes it (R44); none for a form that stores nothing. -/
def storeAddress (i : Instr) (s : State) : Option Word :=
  match i with
  | .store a => some (directAddress a s)
  | .rstore k => some (indirectAddress k s)
  | _ => none

/-- The tabulated cost of the instruction the next step executes; 0 where it executes none. -/
def stepCost (s : State) : Nat :=
  match s.rs, s.fetch.map ProgEntry.decode with
  | .ready, some (.ok i) => tabulated i s.par.cost
  | _, _ => 0

/-- The sum of the tabulated costs of the instructions executed in the next `n` steps. -/
def pathCost : Nat → State → Nat
  | 0, _ => 0
  | n + 1, s =>
    stepCost s +
      match step s with
      | .next t => pathCost n t
      | .fault _ => 0
      | .refused _ => 0

/-- The state in which the BatchDriver's reset starts a program, under the parameters `par`, with `draws` free values drawn. -/
def jobStart (par : Params) (draws : Nat) (job : BatchJob) : State :=
  { State.resetWith job.prog job.input job.init { par with inputMode := .queue } with draws := draws }

/-- The result of one program of a batch run alone, from its own reset (R235). -/
def soloResult (fuel : Nat) (par : Params) (draws : Nat) (job : BatchJob) : Option BatchResult :=
  if programLengthOk job.prog.length then (batchRun fuel (jobStart par draws job)).batchResult else none

/-- The results before the first program that has none. -/
def leadingResults : List (Option BatchResult) → List BatchResult
  | some r :: rest => r :: leadingResults rest
  | _ => []

/-- The program runs forever (R244): after any number of steps the run is still Ready. Every charge fits a `U64` (R27), so
such a program has a loop of instructions whose amounts in `par.cost` are 0; under the source's table every run
ends, in CostOverflow at the latest. -/
def endless (par : Params) (draws : Nat) (job : BatchJob) : Prop :=
  ∀ n : Nat, ∃ t, Host.Core.run core n (jobStart par draws job) = .next t ∧ t.rs = .ready

/-- A log with one entry appended, the oldest evicted where it was full (R239). -/
def appended (capacity : Nat) (log : List LogEntry) (e : LogEntry) : List LogEntry :=
  (log ++ [e]).drop (log.length + 1 - capacity)

/-- Equal but for the materialized entries of data memory, and every address reads the same. -/
def sameReads (s t : State) : Prop :=
  t = { s with mem := t.mem } ∧ ∀ a : Word, t.mem.read a = s.mem.read a

end Sys2Proof.Statements

open Sys2Proof Sys2Proof.Machine Sys2Proof.Statements

/-! ### Encoding -/

/-- R62 to R64, R66: decoding gives back every instruction that is encoded, as a word and as bytes followed by any bytes. -/
def Obligations.DecodeOfEncode : Prop :=
  ∀ i : Instr, i.wellFormed = true →
    decodeWord (encode i) = .ok i ∧ ∀ rest : List Byte, decodeBytes (encodeBytes i ++ rest) = .ok (i, rest)

/-- R66: a word that decodes is the encoding of what it decodes to, so no two words mean one instruction. -/
def Obligations.EncodeOfDecode : Prop :=
  ∀ (w : IWord) (i : Instr), decodeWord w = .ok i → encode i = w

/-- R65: exactly the words of (a), (b) and (c) are Illegal, said by arithmetic on the whole word. -/
def Obligations.IllegalWordsExactly : Prop :=
  ∀ w : IWord,
    (∃ why, decodeWord w = .illegal why) ↔
      (0x14 ≤ w.toNat / 2 ^ 64 ∨
        (0x04 ≤ w.toNat / 2 ^ 64 ∧ w.toNat / 2 ^ 64 ≤ 0x0D ∧ 8 ≤ w.toNat % 2 ^ 64) ∨
        ((w.toNat / 2 ^ 64 ≤ 0x01 ∨ w.toNat / 2 ^ 64 = 0x12 ∨ w.toNat / 2 ^ 64 = 0x13) ∧ w.toNat % 2 ^ 64 ≠ 0))

/-- R65, R61: a record decodes to an instruction exactly when it is well-formed and is that instruction's record. -/
def Obligations.RecordDecodesExactly : Prop :=
  ∀ (r : Record) (i : Instr), r.decode = .ok i ↔ (r.wellFormed = true ∧ i.toRecord = r)

/-- R70: the spec's own encoding examples. -/
def Obligations.ExampleWordsDecode : Prop :=
  decodeWord 0x030000000000000005 = .ok (.store 5) ∧
  decodeWord 0x040000000000000002 = .ok (.rload 2) ∧
  decodeWord 0x0EFFFFFFFFFFFFFFFF = .ok (.jump (-1)) ∧
  decodeWord 0x130000000000000000 = .ok .halt ∧
  (∃ why, decodeWord 0x060000000000000008 = .illegal why) ∧
  (∃ why, decodeWord 0x140000000000000000 = .illegal why) ∧
  (∃ why, decodeWord 0x000000000000000001 = .illegal why)

/-! ### Control family -/

/-- R100: HALT ends the run: rs is Halted and nothing else changes; the bound check after the step does not apply. -/
def Obligations.HaltRule : Prop :=
  decodeWord (wordOf 0x13 0) = .ok .halt ∧
    ∀ s : State, exec .halt s = .next { s with rs := .halted } ∧
      (s.runs .halt → ∃ u, step s = .next u ∧ u.core = { s.core with rs := .halted })

/-- R101: JUMP t. -/
def Obligations.JumpRule : Prop :=
  ∀ target : Word, instrRule (.jump target) (wordOf 0x0E target) chargedCompute CostTable.jump 1 neverBlocked
    fun s t => t.pc = target ∧ onlyPcCost s t

/-- R102: JPOS t, taken exactly where x[0] is positive as a signed integer; charged the same either way. -/
def Obligations.JposRule : Prop :=
  ∀ target : Word, instrRule (.jpos target) (wordOf 0x0F target) chargedCompute CostTable.jpos 1 neverBlocked
    fun s t => (0 < (s.reg 0).toInt → t.pc = target) ∧ ((s.reg 0).toInt ≤ 0 → t.pc = s.pc + 1) ∧ onlyPcCost s t

/-- R103: JZERO t, taken exactly where x[0] is 0 on all 64 bits. -/
def Obligations.JzeroRule : Prop :=
  ∀ target : Word, instrRule (.jzero target) (wordOf 0x10 target) chargedCompute CostTable.jzero 1 neverBlocked
    fun s t => (s.reg 0 = 0 → t.pc = target) ∧ (s.reg 0 ≠ 0 → t.pc = s.pc + 1) ∧ onlyPcCost s t

/-- R104: CALL t leaves the index after the CALL in x[0], exactly (no overflow) where pc is in range, and jumps. -/
def Obligations.CallRule : Prop :=
  ∀ target : Word, instrRule (.call target) (wordOf 0x11 target) chargedCompute CostTable.call 1 neverBlocked
    fun s t => t.reg 0 = s.pc + 1 ∧
      (s.inBounds → s.prog.length ≤ programMax → (t.reg 0).toInt = s.pc.toInt + 1) ∧
      keepsRegsBut s t 0 ∧ t.pc = target ∧ onlyRegsPcCost s t

/-- R105: RTRN jumps to x[0], whatever it holds. -/
def Obligations.RtrnRule : Prop :=
  instrRule .rtrn (wordOf 0x12 0) chargedCompute CostTable.rtrn 1 neverBlocked
    fun s t => t.pc = s.reg 0 ∧ onlyPcCost s t

/-- R106: CALL at c whose target holds RTRN: two steps later pc and x[0] are c + 1, every other register is unchanged and
compute has grown by the two charges. -/
def Obligations.CallThenReturn : Prop :=
  ∀ (s : State) (target : Word) (e : ProgEntry),
    s.runs (.call target) → s.par.stepCeiling = none →
    s.chargeFits (s.par.cost.call + s.par.cost.rtrn) →
    0 ≤ target.toInt → s.prog[target.toInt.toNat]? = some e → e.decode = .ok .rtrn →
    s.pc.toInt + 1 < s.prog.length → s.prog.length ≤ programMax →
    ∃ u, Host.Core.run core 2 s = .next u ∧ u.rs = .ready ∧ u.pc = s.pc + 1 ∧ u.reg 0 = s.pc + 1 ∧
      keepsRegsBut s u 0 ∧ chargedCompute s u (s.par.cost.call + s.par.cost.rtrn) ∧ u.mem = s.mem ∧ u.out = s.out

/-! ### Memory-transfer family -/

/-- R120: LOAD a. -/
def Obligations.LoadRule : Prop :=
  ∀ a : Word, instrRule (.load a) (wordOf 0x02 a) chargedCompute CostTable.load 50 neverBlocked
    fun s t => t.reg 0 = s.mem.read a ∧ (s.mem.materialized a = false → t.reg 0 = 0) ∧
      keepsRegsBut s t 0 ∧ t.pc = s.pc + 1 ∧ keepsMemory s t ∧ onlyRegsPcCost s t

/-- R121: STORE a. -/
def Obligations.StoreRule : Prop :=
  ∀ a : Word, instrRule (.store a) (wordOf 0x03 a) chargedCompute CostTable.store 50 neverBlocked
    fun s t => storesAt s t (directAddress a s) (s.reg 0) ∧ t.pc = s.pc + 1 ∧
      t = { s with mem := t.mem, pc := t.pc, cost := t.cost }

/-- R122: RLOAD k. -/
def Obligations.RloadRule : Prop :=
  ∀ k : Reg, instrRule (.rload k) (wordOf 0x04 (regField k)) chargedCompute CostTable.rload 50 neverBlocked
    fun s t => t.reg 0 = s.mem.read (s.reg k) ∧ (s.mem.materialized (s.reg k) = false → t.reg 0 = 0) ∧
      keepsRegsBut s t 0 ∧ t.pc = s.pc + 1 ∧ keepsMemory s t ∧ onlyRegsPcCost s t

/-- R123: RSTORE k. -/
def Obligations.RstoreRule : Prop :=
  ∀ k : Reg, instrRule (.rstore k) (wordOf 0x05 (regField k)) chargedCompute CostTable.rstore 50 neverBlocked
    fun s t => storesAt s t (indirectAddress k s) (s.reg 0) ∧ t.pc = s.pc + 1 ∧
      t = { s with mem := t.mem, pc := t.pc, cost := t.cost }

/-! ### Arithmetic family -/

/-- R140: ADD k: the exact sum where it is an `Int64`, in mode wrap the sum modulo 2^64. -/
def Obligations.AddRule : Prop :=
  ∀ k : Reg, instrRule (.add k) (wordOf 0x06 (regField k)) chargedCompute CostTable.add 5
    (fun s => overflowTrap s ((s.reg 0).toInt + (s.reg k).toInt))
    fun s t =>
      (inInt64 ((s.reg 0).toInt + (s.reg k).toInt) → (t.reg 0).toInt = (s.reg 0).toInt + (s.reg k).toInt) ∧
      t.reg 0 = s.reg 0 + s.reg k ∧
      keepsRegsBut s t 0 ∧ t.pc = s.pc + 1 ∧ keepsMemory s t ∧ onlyRegsPcCost s t

/-- R141: SUB k, saturating: `max(x[0] - x[k], 0)` where that is an `Int64`, in mode wrap the difference modulo 2^64. -/
def Obligations.SubRule : Prop :=
  ∀ k : Reg, instrRule (.sub k) (wordOf 0x07 (regField k)) chargedCompute CostTable.sub 5 (subTrap k)
    fun s t =>
      ((s.reg 0).toInt - (s.reg k).toInt ≤ int64Max → (t.reg 0).toInt = max ((s.reg 0).toInt - (s.reg k).toInt) 0) ∧
      (int64Max < (s.reg 0).toInt - (s.reg k).toInt → t.reg 0 = s.reg 0 - s.reg k) ∧
      keepsRegsBut s t 0 ∧ t.pc = s.pc + 1 ∧ keepsMemory s t ∧ onlyRegsPcCost s t

/-- R142: SWP k. -/
def Obligations.SwpRule : Prop :=
  ∀ k : Reg, instrRule (.swp k) (wordOf 0x08 (regField k)) chargedCompute CostTable.swp 5 neverBlocked
    fun s t => t.reg 0 = s.reg k ∧ t.reg k = s.reg 0 ∧ (∀ j : Reg, j ≠ 0 → j ≠ k → t.reg j = s.reg j) ∧
      t.pc = s.pc + 1 ∧ keepsMemory s t ∧ onlyRegsPcCost s t

/-- R142: two consecutive SWP k restore every register, and charge twice. -/
def Obligations.SwpTwiceRestores : Prop :=
  ∀ (k : Reg) (s t u : State), s.chargeFits (s.par.cost.swp + s.par.cost.swp) →
    exec (.swp k) s = .next t → exec (.swp k) t = .next u →
    (∀ j : Reg, u.reg j = s.reg j) ∧ chargedCompute s u (s.par.cost.swp + s.par.cost.swp)

/-! ### Register-only family -/

/-- R160: RST k. -/
def Obligations.RstRule : Prop :=
  ∀ k : Reg, instrRule (.rst k) (wordOf 0x09 (regField k)) chargedCompute CostTable.rst 1 neverBlocked
    fun s t => t.reg k = 0 ∧ keepsRegsBut s t k ∧ t.pc = s.pc + 1 ∧ keepsMemory s t ∧ onlyRegsPcCost s t

/-- R161: INC k. -/
def Obligations.IncRule : Prop :=
  ∀ k : Reg, instrRule (.inc k) (wordOf 0x0A (regField k)) chargedCompute CostTable.inc 1
    (fun s => overflowTrap s ((s.reg k).toInt + 1))
    fun s t =>
      ((s.reg k).toInt < int64Max → (t.reg k).toInt = (s.reg k).toInt + 1) ∧
      ((s.reg k).toInt = int64Max → (t.reg k).toInt = int64Min) ∧
      keepsRegsBut s t k ∧ t.pc = s.pc + 1 ∧ keepsMemory s t ∧ onlyRegsPcCost s t

/-- R162: DEC k, floored at its own value when not positive; charged either way. -/
def Obligations.DecRule : Prop :=
  ∀ k : Reg, instrRule (.dec k) (wordOf 0x0B (regField k)) chargedCompute CostTable.dec 1 neverBlocked
    fun s t =>
      (0 < (s.reg k).toInt → (t.reg k).toInt = (s.reg k).toInt - 1) ∧
      ((s.reg k).toInt ≤ 0 → t.reg k = s.reg k) ∧
      keepsRegsBut s t k ∧ t.pc = s.pc + 1 ∧ keepsMemory s t ∧ onlyRegsPcCost s t

/-- R163: SHL k: exact doubling; in mode wrap the 64-bit pattern shifted left by one. -/
def Obligations.ShlRule : Prop :=
  ∀ k : Reg, instrRule (.shl k) (wordOf 0x0C (regField k)) chargedCompute CostTable.shl 1 (shlTrap k)
    fun s t =>
      (inInt64 (2 * (s.reg k).toInt) → (t.reg k).toInt = 2 * (s.reg k).toInt) ∧
      t.reg k = s.reg k <<< 1 ∧
      keepsRegsBut s t k ∧ t.pc = s.pc + 1 ∧ keepsMemory s t ∧ onlyRegsPcCost s t

/-- R164: SHR k: the floor of half the value; bit 63 is copied in. -/
def Obligations.ShrRule : Prop :=
  ∀ k : Reg, instrRule (.shr k) (wordOf 0x0D (regField k)) chargedCompute CostTable.shr 1 neverBlocked
    fun s t =>
      (∃ bit : Int, (bit = 0 ∨ bit = 1) ∧ (s.reg k).toInt = 2 * (t.reg k).toInt + bit) ∧
      (t.reg k).msb = (s.reg k).msb ∧
      keepsRegsBut s t k ∧ t.pc = s.pc + 1 ∧ keepsMemory s t ∧ onlyRegsPcCost s t

/-- R141, R162 (90_conflicts.md C1): SUB in mode fault leaves x[0] non-negative or traps, and DEC never makes a
non-negative register negative. -/
def Obligations.SubDecNonNegative : Prop :=
  ∀ (k j : Reg) (s t : State),
    (s.par.overflowMode = .fault → exec (.sub k) s = .next t → s.rs = .ready → t.rs = .ready → 0 ≤ (t.reg 0).toInt) ∧
    (exec (.dec k) s = .next t → 0 ≤ (s.reg j).toInt → 0 ≤ (t.reg j).toInt)

/-! ### IO family -/

/-- R186, R182, R183: READ. In mock_zero mode it gives 0 and takes nothing; in queue mode it gives the value at the cursor
and advances it; with the off-by-one defect the extra READ advances the cursor and its value is left open. -/
def Obligations.ReadRule : Prop :=
  instrRule .read (wordOf 0x00 0) chargedIo CostTable.read 100 readTrap
    fun s t =>
      (s.par.inputMode = .mockZero → t.reg 0 = 0 ∧ t.icur = s.icur) ∧
      (s.par.inputMode = .queue → t.icur = s.icur + 1) ∧
      (∀ h : s.icur < s.input.length, s.par.inputMode = .queue → t.reg 0 = s.input[s.icur]) ∧
      keepsRegsBut s t 0 ∧ t.pc = s.pc + 1 ∧ keepsMemory s t ∧
      t = { s with x := t.x, pc := t.pc, cost := t.cost, icur := t.icur, draws := t.draws }

/-- R187, R185: WRITE appends one event with x[0] to the output sequence and changes no register and no memory. -/
def Obligations.WriteRule : Prop :=
  instrRule .write (wordOf 0x01 0) chargedIo CostTable.write 100 neverBlocked
    fun s t => t.out = s.out ++ [s.reg 0] ∧ t.pc = s.pc + 1 ∧ keepsMemory s t ∧
      t = { s with out := t.out, pc := t.pc, cost := t.cost }

/-- R187, R237, R239, R203 (95_test_vectors.md S-D). In step mode a step that executes WRITE and stays in range adds
exactly one record, `Write(x[0])`; at the last index the step also traps OutOfBounds, and adds that Trap entry after the
Write entry. Any step that runs: the log gains one Write entry if it emitted a value and one Trap entry if it trapped, and
nothing else. That mock_zero mode is the one with a log, and the order of the two entries, are the model's (log entry 11). -/
def Obligations.StepLogsWritesAndTraps : Prop :=
  (∀ s : State, s.runs .write → s.par.inputMode = .mockZero → s.chargeFits s.par.cost.write →
    s.prog.length ≤ programMax →
    (s.pc.toInt + 1 < s.prog.length →
      ∃ u, step s = .next u ∧ u.rs = .ready ∧ u.x = s.x ∧
        u.log = appended s.par.logCapacity s.log (.write (s.reg 0))) ∧
    (s.pc.toInt + 1 = s.prog.length →
      ∃ u, step s = .next u ∧ u.rs = .trapped ∧ u.trap = some ⟨.outOfBounds, s.pc + 1⟩ ∧ u.x = s.x ∧
        u.out = s.out ++ [s.reg 0] ∧
        u.log = appended s.par.logCapacity (appended s.par.logCapacity s.log (.write (s.reg 0)))
          (.trap ⟨.outOfBounds, s.pc + 1⟩))) ∧
  (∀ s u : State, s.canStep → step s = .next u →
    (s.par.inputMode = .queue → u.log = s.log) ∧
    (s.par.inputMode = .mockZero → u.out = s.out → u.rs ≠ .trapped → u.log = s.log) ∧
    (s.par.inputMode = .mockZero → u.out = s.out → u.rs = .trapped →
      ∃ r, u.trap = some r ∧ u.log = appended s.par.logCapacity s.log (.trap r)) ∧
    (u.out = s.out ∨ u.out = s.out ++ [s.reg 0] ∧
      (s.par.inputMode = .mockZero → u.rs ≠ .trapped →
        u.log = appended s.par.logCapacity s.log (.write (s.reg 0))) ∧
      (s.par.inputMode = .mockZero → u.rs = .trapped →
        ∃ r, u.trap = some r ∧
          u.log = appended s.par.logCapacity (appended s.par.logCapacity s.log (.write (s.reg 0))) (.trap r))))

/-- R184: in mock_zero mode no step of a Ready run traps InputExhausted. -/
def Obligations.MockModeNeverExhausts : Prop :=
  ∀ (s u : State) (p : Word), s.rs = .ready → s.trap = none → s.par.inputMode = .mockZero → step s = .next u →
    u.trap ≠ some ⟨.inputExhausted, p⟩

/-! ### Primitives -/

/-- R10: `checked`. -/
def Obligations.CheckedRule : Prop :=
  ∀ (mode : OverflowMode) (v : Int),
    (inInt64 v → ∃ w, checked mode v = .ok w ∧ w.toInt = v) ∧
    (¬ inInt64 v → mode = .fault → checked mode v = .error .arithmeticOverflow) ∧
    (¬ inInt64 v → mode = .wrap → ∃ w, checked mode v = .ok w ∧ w.toInt = (v + 2 ^ 63) % 2 ^ 64 - 2 ^ 63)

/-- R27: a charge adds exactly its amount to its counter, or raises CostOverflow where the sum would leave a `U64`. -/
def Obligations.ChargeRule : Prop :=
  ∀ (s : State) (c : Nat),
    (s.cost.compute.toNat + s.cost.io.toNat + c ≤ 2 ^ 64 - 1 →
      (∃ t, s.chargeCompute c = .ok t ∧ chargedCompute s t c ∧ t = { s with cost := t.cost }) ∧
      (∃ t, s.chargeIo c = .ok t ∧ chargedIo s t c ∧ t = { s with cost := t.cost })) ∧
    (s.cost.compute.toNat + s.cost.io.toNat + c > 2 ^ 64 - 1 →
      s.chargeCompute c = .error .costOverflow ∧ s.chargeIo c = .error .costOverflow)

/-- R51, R41, R42: after any writes, a read gives the value of the most recent write to that address, or what the address
read before. -/
def Obligations.ReadGivesLastWrite : Prop :=
  ∀ (writes : List (Word × Word)) (m : Memory) (a : Word),
    (writes.foldl (fun acc w => acc.write w.1 w.2) m).read a =
      ((writes.reverse.find? (fun w => w.1 == a)).map Prod.snd).getD (m.read a)

/-- R40, R43: two memories in canonical form with the same materialized entries are the same data. -/
def Obligations.MemoryExtensional : Prop :=
  ∀ m n : Memory, m.wf → n.wf →
    (∀ a : Word, m.materialized a = n.materialized a ∧ m.read a = n.read a) → m = n

/-! ### The step -/

/-- R200: in a session where the next step can run, a step at an entry that decodes to a well-formed instruction `i` is
`exec i`, followed by the bound check of pc. Around it the log's entries for the step (R237, R239; log entry 11) and one
more step counted (R243; log entry 10). -/
def Obligations.StepRunsDecoded : Prop :=
  ∀ (s : State) (e : ProgEntry) (i : Instr), s.canStep → s.fetch = some e → e.decode = .ok i → i.wellFormed = true →
    step s = mapNext (fun t => (State.logStep s t.boundCheck).countStep) (exec i s)

/-- R203: the bound check after every instruction keeps its writes. -/
def Obligations.BoundCheckAfterStep : Prop :=
  ∀ i : Instr, afterStep i

/-- R204, R207: at most one trap, the first in the order of R207; a trap before the instruction's writes changes nothing
but rs and trap; where none applies, the instruction completes untrapped and only R203's check can follow. -/
def Obligations.TrapPriorityAndPrecision : Prop :=
  ∀ s : State, s.canStep →
    (∀ kind, firstTrap s = some kind → ∃ u, step s = .next u ∧ u.core = (raise kind s.pc s).core) ∧
    (firstTrap s = none → ∃ i t u, s.runs i ∧ exec i s = .next t ∧ t.rs ≠ .trapped ∧ step s = .next u ∧
      u.core = (if t.rs = .ready ∧ ¬ t.inBounds then raise .outOfBounds t.pc t else t).core)

/-- R201, R202: a step with pc outside 0..N-1 raises OutOfBounds(pc), and a fetched entry that is Illegal raises
IllegalInstruction(pc), each with no other effect on the core. -/
def Obligations.FetchTraps : Prop :=
  ∀ s : State, s.canStep →
    (¬ s.inBounds →
      ∃ u, step s = .next u ∧ u.core = { s.core with rs := .trapped, trap := some ⟨.outOfBounds, s.pc⟩ }) ∧
    (∀ (e : ProgEntry) (why : IllegalReason), s.fetch = some e → e.decode = .illegal why →
      ∃ u, step s = .next u ∧ u.core = { s.core with rs := .trapped, trap := some ⟨.illegalInstruction, s.pc⟩ })

/-- R205, third and fourth columns, at the instruction: which trap kind which instruction raises. -/
def Obligations.TrapKindsByInstruction : Prop :=
  ∀ (i : Instr) (s t : State), s.rs = .ready → exec i s = .next t → t.rs = .trapped →
    i ≠ .halt ∧ ∃ kind, t.trap = some ⟨kind, s.pc⟩ ∧
      (kind = .costOverflow ∨ (kind = .inputExhausted ∧ i = .read) ∨
        (kind = .arithmeticOverflow ∧ s.par.overflowMode = .fault ∧
          ∃ k, i = .add k ∨ i = .sub k ∨ i = .inc k ∨ i = .shl k))

/-- Every instruction answers a next state from every state: no instruction faults, none is refused. The model's reading:
a trap is a next state (R206; log entry 7), and an instruction is defined in every state, the step making the checks
around it (R200; log entry 8). -/
def Obligations.ExecAlwaysAnswersNext : Prop :=
  ∀ (i : Instr) (s : State), ∃ t, exec i s = .next t

/-- The table of R22 as a bound from above: no register but those it lists is written or read. (That the listed ones are is
said instruction by instruction, in the rules of each.) Third column: a register not listed as written keeps its value;
beside it, so does all of the state that no instruction writes (R36; 60_exceptions.md section 4). Second column: the value
of a register not listed as read changes nothing of what the instruction does; where the instruction completes and writes
that register, the register ends the same too. -/
def Obligations.RegisterUseTable : Prop :=
  ∀ (i : Instr) (s t : State) (j : Reg), exec i s = .next t →
    (¬ mayWrite i j → t.reg j = s.reg j) ∧
    t = { s with x := t.x, pc := t.pc, cost := t.cost, mem := t.mem, icur := t.icur, rs := t.rs, trap := t.trap,
                 out := t.out, draws := t.draws } ∧
    (¬ mayRead i j → ∀ v : Word, ∃ t', exec i (s.setReg j v) = .next t' ∧ t' = { t with x := t'.x } ∧
      (∀ m : Reg, m ≠ j → t'.reg m = t.reg m) ∧ (t.rs = .ready → mayWrite i j → t'.reg j = t.reg j))

/-- R44, R42: only STORE and RSTORE change data memory, each at most the one word at its effective address. -/
def Obligations.OnlyStoresChangeMemory : Prop :=
  ∀ (i : Instr) (s t : State), exec i s = .next t →
    (storeAddress i s = none → t.mem = s.mem) ∧
    (∀ a b : Word, storeAddress i s = some a → b ≠ a →
      t.mem.read b = s.mem.read b ∧ t.mem.materialized b = s.mem.materialized b)

/-- R30, R206: a run that is over stays over: any number of further steps leaves the core as it is. -/
def Obligations.TerminalRunStays : Prop :=
  ∀ (n : Nat) (s : State), s.rs ≠ .ready → s.ended = false →
    ∃ u, Host.Core.run core n s = .next u ∧ u.core = s.core

/-- R25, R203: after every step that leaves the run Ready, pc is in 0..N-1. -/
def Obligations.PcInBoundsWhileReady : Prop :=
  ∀ s t : State, step s = .next t → t.rs = .ready → 0 ≤ t.pc.toInt ∧ t.pc.toInt < t.prog.length

/-- R26: the two counters never decrease. -/
def Obligations.CostCountersMonotonic : Prop :=
  ∀ s t : State, step s = .next t →
    s.cost.compute.toNat ≤ t.cost.compute.toNat ∧ s.cost.io.toNat ≤ t.cost.io.toNat

/-- R36: the program, the input and the parameters are read-only for the run. -/
def Obligations.RunParametersFixed : Prop :=
  ∀ s t : State, step s = .next t → t.prog = s.prog ∧ t.input = s.input ∧ t.par = s.par

/-- The invariant is kept by every step (R27, R31, R42, R182, R239, R7). -/
def Obligations.StepKeepsInvariant : Prop :=
  ∀ s t : State, s.Inv → step s = .next t → t.Inv

/-- The invariant holds after every reset (the values `State.reset` takes are the model's, log entries 1, 2, 3) with a program of admissible length, `State.reset` among them. -/
def Obligations.ResetHasInvariant : Prop :=
  State.reset.Inv ∧
    ∀ (prog : List ProgEntry) (input : List Word) (init : Vector Word 8) (par : Params),
      prog.length ≤ programMax → (State.resetWith prog input init par).Inv

/-! ### Noninterference -/

/-- R43: no run observes whether an address that reads 0 is materialized. -/
def Obligations.MaterializationUnobservable : Prop :=
  ∀ (n : Nat) (s s' t : State), sameReads s s' → Host.Core.run core n s = .next t →
    ∃ t', Host.Core.run core n s' = .next t' ∧ sameReads t t'

/-- R29, R185, R239: no instruction observes the log, the output already emitted, the session's end or the count of
steps: changing them before an instruction changes nothing of what it does to the rest. -/
def Obligations.HostStateUnobservable : Prop :=
  ∀ (i : Instr) (s t : State) (log : List LogEntry) (out : List Word) (ended : Bool) (steps : Nat),
    exec i s = .next t →
    ∃ t', exec i { s with log := log, out := out, ended := ended, steps := steps } = .next t' ∧
      t = { t' with log := t.log, out := t.out, ended := t.ended, steps := t.steps } ∧
      ∃ emitted : List Word, t.out = s.out ++ emitted ∧ t'.out = out ++ emitted

/-! ### Reset and the host -/

/-- R251, R35: the reset command from any state gives every state element its reset value, whatever the state. -/
def Obligations.ResetCommandRule : Prop :=
  ∀ (s : State) (prog : List ProgEntry) (mode : InputMode) (input : List Word) (init : Vector Word 8),
    prog.length ≤ programMax →
    ∃ t, hostCommand (.reset prog mode input init) s = .next t ∧
      (∀ k : Reg, t.reg k = init.get k) ∧ t.pc = 0 ∧ t.cost = ⟨0, 0⟩ ∧
      (∀ a : Word, t.mem.read a = 0 ∧ t.mem.materialized a = false) ∧ t.icur = 0 ∧ t.rs = .ready ∧ t.trap = none ∧
      t.prog = prog ∧ t.input = input ∧ t.par.inputMode = mode

/-- The model's reading (log entries 4, 11 and 12; R230 names four arguments of the reset command and R251 says that a run
is fresh, but neither names these): the reset command keeps every parameter but the input mode it is given, and starts
with no output emitted, an empty log, an open session and no step counted. -/
def Obligations.ResetKeepsParametersOpensSession : Prop :=
  ∀ (s t : State) (prog : List ProgEntry) (mode : InputMode) (input : List Word) (init : Vector Word 8),
    hostCommand (.reset prog mode input init) s = .next t →
      t.par = { s.par with inputMode := mode } ∧ t.out = [] ∧ t.log = [] ∧ t.ended = false ∧ t.steps = 0

/-- R240: a step when the run is over changes no core state; in step mode the log gains one Refused entry, and in queue
mode it is unchanged. That a log is kept in mock_zero mode and not in queue mode is the model's reading (log entry 11). -/
def Obligations.StepWhenOverIsRefused : Prop :=
  ∀ s : State, s.ended = false → s.rs ≠ .ready →
    ∃ u, step s = .next u ∧ u = { s with log := u.log } ∧
      (s.par.inputMode = .mockZero → u.log = appended s.par.logCapacity s.log .refused) ∧
      (s.par.inputMode = .queue → u.log = s.log)

/-- R241: quit changes no core state, and no further command of the session is accepted. That each is then refused by the
name `sessionEnded` with no log entry is the model's reading (log entry 9). -/
def Obligations.QuitEndsSession : Prop :=
  ∀ (s : State) (cmd : String), s.ended = false →
    ∃ u, hostCommand .quit s = .next u ∧ u = { s with ended := true } ∧
      hostCommand .step u = .refused .sessionEnded ∧ hostCommand .quit u = .refused .sessionEnded ∧
      hostCommand (.other cmd) u = .refused .sessionEnded

/-- R242: an unknown command changes no core state; the StepDriver logs one Unknown entry (the StepDriver being the one
that runs the core in mock_zero mode, and no log being kept in queue mode: the model's reading, log entry 11). -/
def Obligations.UnknownCommandLogged : Prop :=
  ∀ (s : State) (cmd : String), s.ended = false →
    ∃ u, hostCommand (.other cmd) s = .next u ∧ u = { s with log := u.log } ∧
      (s.par.inputMode = .mockZero → u.log = appended s.par.logCapacity s.log (.unknown cmd)) ∧
      (s.par.inputMode = .queue → u.log = s.log)

/-- R243 (that a further step command is then refused by name is the model's reading, log entry 10): at the step ceiling a Ready run is stepped no more and its result is {absent, false, "step ceiling"}; below it,
and without a ceiling, a step is made and counted. -/
def Obligations.StepCeilingStops : Prop :=
  ∀ s : State, s.ended = false → s.rs = .ready →
    (∀ ceiling, s.par.stepCeiling = some ceiling → ceiling ≤ s.steps →
      step s = .refused .stepCeiling ∧ s.batchResult = some ⟨none, false, .stepCeiling⟩) ∧
    ((∀ ceiling, s.par.stepCeiling = some ceiling → s.steps < ceiling) →
      s.batchResult = none ∧ ∃ t, step s = .next t ∧ t.steps = s.steps + 1)

/-- R234: the result of a trapped run: cost absent, no success, the trap record as detail. -/
def Obligations.TrappedResultRule : Prop :=
  ∀ (s u : State), s.Inv → step s = .next u → u.rs = .trapped →
    ∃ r, u.trap = some r ∧ u.batchResult = some ⟨none, false, .trapped (some r)⟩

/-- R233, R26: a run that reaches HALT reports, as one `U64`, the cost it started with plus the sum of the tabulated
costs of the instructions executed along the path. -/
def Obligations.HaltedCostIsPathSum : Prop :=
  ∀ (n : Nat) (s t : State), s.rs = .ready → s.costFits → Host.Core.run core n s = .next t → t.rs = .halted →
    ∃ total, t.batchResult = some ⟨some total, true, .empty⟩ ∧ total.toNat = s.cost.total + pathCost n s

/-- R235, R244. Whatever state the core is in and whatever programs ran before, the results of a batch are those of its
programs run alone, each from its own reset, up to the first program that has no result: one that has not ended in `fuel`
steps, or is too long for its reset (log entries 16, 17). With READ_OFF_BY_ONE the value of an extra READ is a fresh free
value at each draw (log entry 5), so a program run alone is one with some count of draws made before it; at the default
false that count does not matter. A program that runs forever hangs the driver: the batch has the results of the programs
before it, and none after. -/
def Obligations.BatchRunsIndependent : Prop :=
  ∀ (fuel : Nat) (jobs : List BatchJob) (s : State),
    (∃ draws : List Nat, draws.length = jobs.length ∧
      runBatch fuel jobs s = leadingResults (List.zipWith (soloResult fuel s.par) draws jobs)) ∧
    (s.par.readOffByOne = false → runBatch fuel jobs s = leadingResults (jobs.map (soloResult fuel s.par 0))) ∧
    (∀ (job : BatchJob) (rest : List BatchJob), (∀ draws : Nat, endless s.par draws job) →
      runBatch fuel (jobs ++ job :: rest) s = runBatch fuel jobs s)

/-- Every host command, reset among them, keeps the invariant. -/
def Obligations.HostCommandKeepsInvariant : Prop :=
  ∀ (c : HostCommand) (s t : State), s.Inv → hostCommand c s = .next t → t.Inv
end

