-- ==== Sys2Proof/Laws/Memory.lean ====
section
/-! SUPPORT. What the data memory's operations can do: read after write, and that a write keeps the canonical form. -/

namespace Sys2Proof.Machine

/-- A lookup after an insert: the inserted word at its own address, what was there before at every other. -/
theorem Memory.lookup_insert (m : Memory) (a b : Nat) (w : Word) :
    Memory.lookup (Memory.insert m a w) b = if b = a then some w else Memory.lookup m b := by
  induction m with
  | nil => simp [Memory.insert, Memory.lookup]
  | cons c rest ih =>
    obtain ⟨k, v⟩ := c
    simp only [Memory.insert]
    split
    · simp [Memory.lookup]
    · split
      · rename_i h; subst h
        by_cases hb : b = a <;> simp [Memory.lookup, hb]
      · rename_i hne
        simp only [Memory.lookup, ih]
        by_cases hk : b = k
        · subst hk; simp [Ne.symm hne]
        · simp [hk]

/-- The written address holds the written word; every other address reads as before. -/
theorem Memory.read_write (m : Memory) (a b v : Word) :
    (m.write a v).read b = if b = a then v else m.read b := by
  simp only [Memory.read, Memory.write, Memory.lookup_insert, BitVec.toNat_inj]
  split <;> rfl

/-- A write materializes its own address and no other. -/
theorem Memory.materialized_write (m : Memory) (a b v : Word) :
    (m.write a v).materialized b = if b = a then true else m.materialized b := by
  simp only [Memory.materialized, Memory.write, Memory.lookup_insert, BitVec.toNat_inj]
  split <;> rfl

/-- An address that is not materialized reads 0. -/
theorem Memory.read_unmaterialized (m : Memory) (a : Word) (h : m.materialized a = false) : m.read a = 0 := by
  simp only [Memory.materialized, Option.isSome_eq_false_iff, Option.isNone_iff_eq_none] at h
  simp [Memory.read, h, unsetWord]

/-- The addresses of a memory after an insert. -/
theorem Memory.mem_keys_insert (m : Memory) (a k : Nat) (w : Word) :
    k ∈ (Memory.insert m a w).map Prod.fst ↔ k = a ∨ k ∈ m.map Prod.fst := by
  induction m with
  | nil => simp [Memory.insert]
  | cons c rest ih =>
    obtain ⟨k', v⟩ := c
    simp only [Memory.insert]
    split
    · simp
    · split
      · rename_i h; subst h; simp
      · simp only [List.map_cons, List.mem_cons, ih]; tauto

/-- An insert keeps the addresses strictly rising. -/
theorem Memory.insert_rising (m : Memory) (a : Nat) (w : Word)
    (h : (m.map Prod.fst).Pairwise (· < ·)) : ((Memory.insert m a w).map Prod.fst).Pairwise (· < ·) := by
  induction m with
  | nil => simp [Memory.insert]
  | cons c rest ih =>
    obtain ⟨k, v⟩ := c
    simp only [List.map_cons, List.pairwise_cons] at h
    simp only [Memory.insert]
    split
    · rename_i hlt
      simp only [List.map_cons, List.pairwise_cons, List.mem_cons]
      refine ⟨?_, h⟩
      rintro j (rfl | hj)
      · exact hlt
      · exact Nat.lt_trans hlt (h.1 j hj)
    · split
      · rename_i heq; subst heq
        simpa only [List.map_cons, List.pairwise_cons] using h
      · simp only [List.map_cons, List.pairwise_cons]
        refine ⟨fun j hj => ?_, ih h.2⟩
        rcases (Memory.mem_keys_insert rest a j w).1 hj with rfl | hj
        · omega
        · exact h.1 j hj

/-- Every memory operation keeps the canonical form: the one that changes memory does. -/
theorem Memory.write_wf (m : Memory) (a v : Word) (h : m.wf) : (m.write a v).wf := by
  refine ⟨Memory.insert_rising m a.toNat v h.1, fun c hc => ?_⟩
  have hk : c.1 ∈ (Memory.insert m a.toNat v).map Prod.fst := List.mem_map_of_mem hc
  rcases (Memory.mem_keys_insert m a.toNat c.1 v).1 hk with h1 | h1
  · rw [h1]; exact a.isLt
  · obtain ⟨d, hd, hde⟩ := List.mem_map.1 h1
    rw [← hde]; exact h.2 d hd

/-- The memory right after reset is in canonical form. -/
theorem Memory.nil_wf : Memory.wf [] := by
  constructor <;> simp

end Sys2Proof.Machine
end

