-- ==== Sys2Proof/Laws/State.lean ====
section
/-! SUPPORT. One lemma per field per update of the state: what the update leaves there. Proofs about meanings cite these
and never unfold a record update. -/

namespace Sys2Proof.Machine

variable (s : State)

@[simp] theorem setReg_x (k : Reg) (v : Word) : (s.setReg k v).x = s.x.set k.val v k.isLt := rfl
@[simp] theorem setReg_pc (k : Reg) (v : Word) : (s.setReg k v).pc = s.pc := rfl
@[simp] theorem setReg_cost (k : Reg) (v : Word) : (s.setReg k v).cost = s.cost := rfl
@[simp] theorem setReg_mem (k : Reg) (v : Word) : (s.setReg k v).mem = s.mem := rfl
@[simp] theorem setReg_icur (k : Reg) (v : Word) : (s.setReg k v).icur = s.icur := rfl
@[simp] theorem setReg_rs (k : Reg) (v : Word) : (s.setReg k v).rs = s.rs := rfl
@[simp] theorem setReg_trap (k : Reg) (v : Word) : (s.setReg k v).trap = s.trap := rfl
@[simp] theorem setReg_out (k : Reg) (v : Word) : (s.setReg k v).out = s.out := rfl
@[simp] theorem setReg_prog (k : Reg) (v : Word) : (s.setReg k v).prog = s.prog := rfl
@[simp] theorem setReg_input (k : Reg) (v : Word) : (s.setReg k v).input = s.input := rfl
@[simp] theorem setReg_par (k : Reg) (v : Word) : (s.setReg k v).par = s.par := rfl
@[simp] theorem setReg_log (k : Reg) (v : Word) : (s.setReg k v).log = s.log := rfl
@[simp] theorem setReg_ended (k : Reg) (v : Word) : (s.setReg k v).ended = s.ended := rfl
@[simp] theorem setReg_steps (k : Reg) (v : Word) : (s.setReg k v).steps = s.steps := rfl
@[simp] theorem setReg_draws (k : Reg) (v : Word) : (s.setReg k v).draws = s.draws := rfl

@[simp] theorem setPc_x (t : Word) : (s.setPc t).x = s.x := rfl
@[simp] theorem setPc_pc (t : Word) : (s.setPc t).pc = t := rfl
@[simp] theorem setPc_cost (t : Word) : (s.setPc t).cost = s.cost := rfl
@[simp] theorem setPc_mem (t : Word) : (s.setPc t).mem = s.mem := rfl
@[simp] theorem setPc_icur (t : Word) : (s.setPc t).icur = s.icur := rfl
@[simp] theorem setPc_rs (t : Word) : (s.setPc t).rs = s.rs := rfl
@[simp] theorem setPc_trap (t : Word) : (s.setPc t).trap = s.trap := rfl
@[simp] theorem setPc_out (t : Word) : (s.setPc t).out = s.out := rfl
@[simp] theorem setPc_prog (t : Word) : (s.setPc t).prog = s.prog := rfl
@[simp] theorem setPc_input (t : Word) : (s.setPc t).input = s.input := rfl
@[simp] theorem setPc_par (t : Word) : (s.setPc t).par = s.par := rfl
@[simp] theorem setPc_log (t : Word) : (s.setPc t).log = s.log := rfl
@[simp] theorem setPc_ended (t : Word) : (s.setPc t).ended = s.ended := rfl
@[simp] theorem setPc_steps (t : Word) : (s.setPc t).steps = s.steps := rfl
@[simp] theorem setPc_draws (t : Word) : (s.setPc t).draws = s.draws := rfl

@[simp] theorem advance_x : (s.advance).x = s.x := rfl
@[simp] theorem advance_pc : (s.advance).pc = s.pc + 1 := rfl
@[simp] theorem advance_cost : (s.advance).cost = s.cost := rfl
@[simp] theorem advance_mem : (s.advance).mem = s.mem := rfl
@[simp] theorem advance_icur : (s.advance).icur = s.icur := rfl
@[simp] theorem advance_rs : (s.advance).rs = s.rs := rfl
@[simp] theorem advance_trap : (s.advance).trap = s.trap := rfl
@[simp] theorem advance_out : (s.advance).out = s.out := rfl
@[simp] theorem advance_prog : (s.advance).prog = s.prog := rfl
@[simp] theorem advance_input : (s.advance).input = s.input := rfl
@[simp] theorem advance_par : (s.advance).par = s.par := rfl
@[simp] theorem advance_log : (s.advance).log = s.log := rfl
@[simp] theorem advance_ended : (s.advance).ended = s.ended := rfl
@[simp] theorem advance_steps : (s.advance).steps = s.steps := rfl
@[simp] theorem advance_draws : (s.advance).draws = s.draws := rfl

@[simp] theorem memWrite_x (a v : Word) : (s.memWrite a v).x = s.x := rfl
@[simp] theorem memWrite_pc (a v : Word) : (s.memWrite a v).pc = s.pc := rfl
@[simp] theorem memWrite_cost (a v : Word) : (s.memWrite a v).cost = s.cost := rfl
@[simp] theorem memWrite_mem (a v : Word) : (s.memWrite a v).mem = s.mem.write a v := rfl
@[simp] theorem memWrite_icur (a v : Word) : (s.memWrite a v).icur = s.icur := rfl
@[simp] theorem memWrite_rs (a v : Word) : (s.memWrite a v).rs = s.rs := rfl
@[simp] theorem memWrite_trap (a v : Word) : (s.memWrite a v).trap = s.trap := rfl
@[simp] theorem memWrite_out (a v : Word) : (s.memWrite a v).out = s.out := rfl
@[simp] theorem memWrite_prog (a v : Word) : (s.memWrite a v).prog = s.prog := rfl
@[simp] theorem memWrite_input (a v : Word) : (s.memWrite a v).input = s.input := rfl
@[simp] theorem memWrite_par (a v : Word) : (s.memWrite a v).par = s.par := rfl
@[simp] theorem memWrite_log (a v : Word) : (s.memWrite a v).log = s.log := rfl
@[simp] theorem memWrite_ended (a v : Word) : (s.memWrite a v).ended = s.ended := rfl
@[simp] theorem memWrite_steps (a v : Word) : (s.memWrite a v).steps = s.steps := rfl
@[simp] theorem memWrite_draws (a v : Word) : (s.memWrite a v).draws = s.draws := rfl

@[simp] theorem halt_x : (s.halt).x = s.x := rfl
@[simp] theorem halt_pc : (s.halt).pc = s.pc := rfl
@[simp] theorem halt_cost : (s.halt).cost = s.cost := rfl
@[simp] theorem halt_mem : (s.halt).mem = s.mem := rfl
@[simp] theorem halt_icur : (s.halt).icur = s.icur := rfl
@[simp] theorem halt_rs : (s.halt).rs = .halted := rfl
@[simp] theorem halt_trap : (s.halt).trap = s.trap := rfl
@[simp] theorem halt_out : (s.halt).out = s.out := rfl
@[simp] theorem halt_prog : (s.halt).prog = s.prog := rfl
@[simp] theorem halt_input : (s.halt).input = s.input := rfl
@[simp] theorem halt_par : (s.halt).par = s.par := rfl
@[simp] theorem halt_log : (s.halt).log = s.log := rfl
@[simp] theorem halt_ended : (s.halt).ended = s.ended := rfl
@[simp] theorem halt_steps : (s.halt).steps = s.steps := rfl
@[simp] theorem halt_draws : (s.halt).draws = s.draws := rfl

@[simp] theorem raise_x (kind : TrapKind) (p : Word) : (raise kind p s).x = s.x := rfl
@[simp] theorem raise_pc (kind : TrapKind) (p : Word) : (raise kind p s).pc = s.pc := rfl
@[simp] theorem raise_cost (kind : TrapKind) (p : Word) : (raise kind p s).cost = s.cost := rfl
@[simp] theorem raise_mem (kind : TrapKind) (p : Word) : (raise kind p s).mem = s.mem := rfl
@[simp] theorem raise_icur (kind : TrapKind) (p : Word) : (raise kind p s).icur = s.icur := rfl
@[simp] theorem raise_rs (kind : TrapKind) (p : Word) : (raise kind p s).rs = .trapped := rfl
@[simp] theorem raise_trap (kind : TrapKind) (p : Word) : (raise kind p s).trap = some ⟨kind, p⟩ := rfl
@[simp] theorem raise_out (kind : TrapKind) (p : Word) : (raise kind p s).out = s.out := rfl
@[simp] theorem raise_prog (kind : TrapKind) (p : Word) : (raise kind p s).prog = s.prog := rfl
@[simp] theorem raise_input (kind : TrapKind) (p : Word) : (raise kind p s).input = s.input := rfl
@[simp] theorem raise_par (kind : TrapKind) (p : Word) : (raise kind p s).par = s.par := rfl
@[simp] theorem raise_log (kind : TrapKind) (p : Word) : (raise kind p s).log = s.log := rfl
@[simp] theorem raise_ended (kind : TrapKind) (p : Word) : (raise kind p s).ended = s.ended := rfl
@[simp] theorem raise_steps (kind : TrapKind) (p : Word) : (raise kind p s).steps = s.steps := rfl
@[simp] theorem raise_draws (kind : TrapKind) (p : Word) : (raise kind p s).draws = s.draws := rfl

@[simp] theorem addCompute_x (c : Nat) : (s.addCompute c).x = s.x := rfl
@[simp] theorem addCompute_pc (c : Nat) : (s.addCompute c).pc = s.pc := rfl
@[simp] theorem addCompute_cost (c : Nat) : (s.addCompute c).cost = ⟨s.cost.compute + BitVec.ofNat 64 c, s.cost.io⟩ := rfl
@[simp] theorem addCompute_mem (c : Nat) : (s.addCompute c).mem = s.mem := rfl
@[simp] theorem addCompute_icur (c : Nat) : (s.addCompute c).icur = s.icur := rfl
@[simp] theorem addCompute_rs (c : Nat) : (s.addCompute c).rs = s.rs := rfl
@[simp] theorem addCompute_trap (c : Nat) : (s.addCompute c).trap = s.trap := rfl
@[simp] theorem addCompute_out (c : Nat) : (s.addCompute c).out = s.out := rfl
@[simp] theorem addCompute_prog (c : Nat) : (s.addCompute c).prog = s.prog := rfl
@[simp] theorem addCompute_input (c : Nat) : (s.addCompute c).input = s.input := rfl
@[simp] theorem addCompute_par (c : Nat) : (s.addCompute c).par = s.par := rfl
@[simp] theorem addCompute_log (c : Nat) : (s.addCompute c).log = s.log := rfl
@[simp] theorem addCompute_ended (c : Nat) : (s.addCompute c).ended = s.ended := rfl
@[simp] theorem addCompute_steps (c : Nat) : (s.addCompute c).steps = s.steps := rfl
@[simp] theorem addCompute_draws (c : Nat) : (s.addCompute c).draws = s.draws := rfl

@[simp] theorem addIo_x (c : Nat) : (s.addIo c).x = s.x := rfl
@[simp] theorem addIo_pc (c : Nat) : (s.addIo c).pc = s.pc := rfl
@[simp] theorem addIo_cost (c : Nat) : (s.addIo c).cost = ⟨s.cost.compute, s.cost.io + BitVec.ofNat 64 c⟩ := rfl
@[simp] theorem addIo_mem (c : Nat) : (s.addIo c).mem = s.mem := rfl
@[simp] theorem addIo_icur (c : Nat) : (s.addIo c).icur = s.icur := rfl
@[simp] theorem addIo_rs (c : Nat) : (s.addIo c).rs = s.rs := rfl
@[simp] theorem addIo_trap (c : Nat) : (s.addIo c).trap = s.trap := rfl
@[simp] theorem addIo_out (c : Nat) : (s.addIo c).out = s.out := rfl
@[simp] theorem addIo_prog (c : Nat) : (s.addIo c).prog = s.prog := rfl
@[simp] theorem addIo_input (c : Nat) : (s.addIo c).input = s.input := rfl
@[simp] theorem addIo_par (c : Nat) : (s.addIo c).par = s.par := rfl
@[simp] theorem addIo_log (c : Nat) : (s.addIo c).log = s.log := rfl
@[simp] theorem addIo_ended (c : Nat) : (s.addIo c).ended = s.ended := rfl
@[simp] theorem addIo_steps (c : Nat) : (s.addIo c).steps = s.steps := rfl
@[simp] theorem addIo_draws (c : Nat) : (s.addIo c).draws = s.draws := rfl

@[simp] theorem outWrite_x (v : Word) : (s.outWrite v).x = s.x := rfl
@[simp] theorem outWrite_pc (v : Word) : (s.outWrite v).pc = s.pc := rfl
@[simp] theorem outWrite_cost (v : Word) : (s.outWrite v).cost = s.cost := rfl
@[simp] theorem outWrite_mem (v : Word) : (s.outWrite v).mem = s.mem := rfl
@[simp] theorem outWrite_icur (v : Word) : (s.outWrite v).icur = s.icur := rfl
@[simp] theorem outWrite_rs (v : Word) : (s.outWrite v).rs = s.rs := rfl
@[simp] theorem outWrite_trap (v : Word) : (s.outWrite v).trap = s.trap := rfl
@[simp] theorem outWrite_out (v : Word) : (s.outWrite v).out = s.out ++ [v] := rfl
@[simp] theorem outWrite_prog (v : Word) : (s.outWrite v).prog = s.prog := rfl
@[simp] theorem outWrite_input (v : Word) : (s.outWrite v).input = s.input := rfl
@[simp] theorem outWrite_par (v : Word) : (s.outWrite v).par = s.par := rfl
@[simp] theorem outWrite_log (v : Word) : (s.outWrite v).log = s.log := rfl
@[simp] theorem outWrite_ended (v : Word) : (s.outWrite v).ended = s.ended := rfl
@[simp] theorem outWrite_steps (v : Word) : (s.outWrite v).steps = s.steps := rfl
@[simp] theorem outWrite_draws (v : Word) : (s.outWrite v).draws = s.draws := rfl

@[simp] theorem countStep_x : (s.countStep).x = s.x := rfl
@[simp] theorem countStep_pc : (s.countStep).pc = s.pc := rfl
@[simp] theorem countStep_cost : (s.countStep).cost = s.cost := rfl
@[simp] theorem countStep_mem : (s.countStep).mem = s.mem := rfl
@[simp] theorem countStep_icur : (s.countStep).icur = s.icur := rfl
@[simp] theorem countStep_rs : (s.countStep).rs = s.rs := rfl
@[simp] theorem countStep_trap : (s.countStep).trap = s.trap := rfl
@[simp] theorem countStep_out : (s.countStep).out = s.out := rfl
@[simp] theorem countStep_prog : (s.countStep).prog = s.prog := rfl
@[simp] theorem countStep_input : (s.countStep).input = s.input := rfl
@[simp] theorem countStep_par : (s.countStep).par = s.par := rfl
@[simp] theorem countStep_log : (s.countStep).log = s.log := rfl
@[simp] theorem countStep_ended : (s.countStep).ended = s.ended := rfl
@[simp] theorem countStep_steps : (s.countStep).steps = s.steps + 1 := rfl
@[simp] theorem countStep_draws : (s.countStep).draws = s.draws := rfl

@[simp] theorem endSession_x : (s.endSession).x = s.x := rfl
@[simp] theorem endSession_pc : (s.endSession).pc = s.pc := rfl
@[simp] theorem endSession_cost : (s.endSession).cost = s.cost := rfl
@[simp] theorem endSession_mem : (s.endSession).mem = s.mem := rfl
@[simp] theorem endSession_icur : (s.endSession).icur = s.icur := rfl
@[simp] theorem endSession_rs : (s.endSession).rs = s.rs := rfl
@[simp] theorem endSession_trap : (s.endSession).trap = s.trap := rfl
@[simp] theorem endSession_out : (s.endSession).out = s.out := rfl
@[simp] theorem endSession_prog : (s.endSession).prog = s.prog := rfl
@[simp] theorem endSession_input : (s.endSession).input = s.input := rfl
@[simp] theorem endSession_par : (s.endSession).par = s.par := rfl
@[simp] theorem endSession_log : (s.endSession).log = s.log := rfl
@[simp] theorem endSession_ended : (s.endSession).ended = true := rfl
@[simp] theorem endSession_steps : (s.endSession).steps = s.steps := rfl
@[simp] theorem endSession_draws : (s.endSession).draws = s.draws := rfl

@[simp] theorem takeInput_x : (s.takeInput).x = s.x := by unfold State.takeInput; split <;> rfl
@[simp] theorem takeInput_pc : (s.takeInput).pc = s.pc := by unfold State.takeInput; split <;> rfl
@[simp] theorem takeInput_cost : (s.takeInput).cost = s.cost := by unfold State.takeInput; split <;> rfl
@[simp] theorem takeInput_mem : (s.takeInput).mem = s.mem := by unfold State.takeInput; split <;> rfl
@[simp] theorem takeInput_rs : (s.takeInput).rs = s.rs := by unfold State.takeInput; split <;> rfl
@[simp] theorem takeInput_trap : (s.takeInput).trap = s.trap := by unfold State.takeInput; split <;> rfl
@[simp] theorem takeInput_out : (s.takeInput).out = s.out := by unfold State.takeInput; split <;> rfl
@[simp] theorem takeInput_prog : (s.takeInput).prog = s.prog := by unfold State.takeInput; split <;> rfl
@[simp] theorem takeInput_input : (s.takeInput).input = s.input := by unfold State.takeInput; split <;> rfl
@[simp] theorem takeInput_par : (s.takeInput).par = s.par := by unfold State.takeInput; split <;> rfl
@[simp] theorem takeInput_log : (s.takeInput).log = s.log := by unfold State.takeInput; split <;> rfl
@[simp] theorem takeInput_ended : (s.takeInput).ended = s.ended := by unfold State.takeInput; split <;> rfl
@[simp] theorem takeInput_steps : (s.takeInput).steps = s.steps := by unfold State.takeInput; split <;> rfl

@[simp] theorem pushLog_x (e : LogEntry) : (s.pushLog e).x = s.x := by unfold State.pushLog; split <;> rfl
@[simp] theorem pushLog_pc (e : LogEntry) : (s.pushLog e).pc = s.pc := by unfold State.pushLog; split <;> rfl
@[simp] theorem pushLog_cost (e : LogEntry) : (s.pushLog e).cost = s.cost := by unfold State.pushLog; split <;> rfl
@[simp] theorem pushLog_mem (e : LogEntry) : (s.pushLog e).mem = s.mem := by unfold State.pushLog; split <;> rfl
@[simp] theorem pushLog_icur (e : LogEntry) : (s.pushLog e).icur = s.icur := by unfold State.pushLog; split <;> rfl
@[simp] theorem pushLog_rs (e : LogEntry) : (s.pushLog e).rs = s.rs := by unfold State.pushLog; split <;> rfl
@[simp] theorem pushLog_trap (e : LogEntry) : (s.pushLog e).trap = s.trap := by unfold State.pushLog; split <;> rfl
@[simp] theorem pushLog_out (e : LogEntry) : (s.pushLog e).out = s.out := by unfold State.pushLog; split <;> rfl
@[simp] theorem pushLog_prog (e : LogEntry) : (s.pushLog e).prog = s.prog := by unfold State.pushLog; split <;> rfl
@[simp] theorem pushLog_input (e : LogEntry) : (s.pushLog e).input = s.input := by unfold State.pushLog; split <;> rfl
@[simp] theorem pushLog_par (e : LogEntry) : (s.pushLog e).par = s.par := by unfold State.pushLog; split <;> rfl
@[simp] theorem pushLog_ended (e : LogEntry) : (s.pushLog e).ended = s.ended := by unfold State.pushLog; split <;> rfl
@[simp] theorem pushLog_steps (e : LogEntry) : (s.pushLog e).steps = s.steps := by unfold State.pushLog; split <;> rfl
@[simp] theorem pushLog_draws (e : LogEntry) : (s.pushLog e).draws = s.draws := by unfold State.pushLog; split <;> rfl

@[simp] theorem boundCheck_x : (s.boundCheck).x = s.x := by unfold State.boundCheck; split <;> rfl
@[simp] theorem boundCheck_pc : (s.boundCheck).pc = s.pc := by unfold State.boundCheck; split <;> rfl
@[simp] theorem boundCheck_cost : (s.boundCheck).cost = s.cost := by unfold State.boundCheck; split <;> rfl
@[simp] theorem boundCheck_mem : (s.boundCheck).mem = s.mem := by unfold State.boundCheck; split <;> rfl
@[simp] theorem boundCheck_icur : (s.boundCheck).icur = s.icur := by unfold State.boundCheck; split <;> rfl
@[simp] theorem boundCheck_out : (s.boundCheck).out = s.out := by unfold State.boundCheck; split <;> rfl
@[simp] theorem boundCheck_prog : (s.boundCheck).prog = s.prog := by unfold State.boundCheck; split <;> rfl
@[simp] theorem boundCheck_input : (s.boundCheck).input = s.input := by unfold State.boundCheck; split <;> rfl
@[simp] theorem boundCheck_par : (s.boundCheck).par = s.par := by unfold State.boundCheck; split <;> rfl
@[simp] theorem boundCheck_log : (s.boundCheck).log = s.log := by unfold State.boundCheck; split <;> rfl
@[simp] theorem boundCheck_ended : (s.boundCheck).ended = s.ended := by unfold State.boundCheck; split <;> rfl
@[simp] theorem boundCheck_steps : (s.boundCheck).steps = s.steps := by unfold State.boundCheck; split <;> rfl
@[simp] theorem boundCheck_draws : (s.boundCheck).draws = s.draws := by unfold State.boundCheck; split <;> rfl

/-- Logging several entries changes the log only. -/
theorem pushLogs_only_log (es : List LogEntry) :
    ∀ t : State, (t.pushLogs es) = { t with log := (t.pushLogs es).log } := by
  induction es with
  | nil => intro t; rfl
  | cons e es ih =>
    intro t
    have h : (t.pushLog e).pushLogs es = { t.pushLog e with log := ((t.pushLog e).pushLogs es).log } := ih (t.pushLog e)
    have h2 : t.pushLog e = { t with log := (t.pushLog e).log } := by
      unfold State.pushLog; split <;> rfl
    calc t.pushLogs (e :: es) = (t.pushLog e).pushLogs es := rfl
      _ = { t.pushLog e with log := ((t.pushLog e).pushLogs es).log } := h
      _ = { t with log := ((t.pushLog e).pushLogs es).log } := by rw [h2]

end Sys2Proof.Machine
end

