-- ==== Sys2Proof/Laws/Ops.lean ====
section
/-! SUPPORT. For each shared operation, once, everything it can do. -/

namespace Sys2Proof.Machine

@[simp] theorem r0_eq : r0 = 0 := rfl
@[simp] theorem directAddress_eq (a : Word) (s : State) : directAddress a s = a := rfl
@[simp] theorem indirectAddress_eq (k : Reg) (s : State) : indirectAddress k s = s.reg k := rfl
@[simp] theorem returnAddress_eq (s : State) : returnAddress s = s.pc + 1 := rfl

/-! ### Registers -/

/-- A register after a write: the written value, or what it held. -/
theorem reg_setReg (s : State) (k j : Reg) (v : Word) : (s.setReg k v).reg j = if j = k then v else s.reg j := by
  unfold State.reg State.setReg
  simp only [Vector.get_eq_getElem, Vector.getElem_set, Fin.val_inj, eq_comm (a := k)]

@[simp] theorem reg_setReg_self (s : State) (k : Reg) (v : Word) : (s.setReg k v).reg k = v := by
  simp [reg_setReg]

@[simp] theorem reg_setReg_of_ne (s : State) (k j : Reg) (v : Word) (h : j ≠ k) : (s.setReg k v).reg j = s.reg j := by
  simp [reg_setReg, h]

/-- Two register files with the same eight values are the same. -/
theorem regs_ext (s t : State) (h : ∀ k : Reg, s.reg k = t.reg k) : s.x = t.x := by
  apply Vector.ext
  intro i hi
  exact h ⟨i, hi⟩

/-- The registers depend on the register file only. -/
theorem reg_of_x (s t : State) (k : Reg) (h : t.x = s.x) : t.reg k = s.reg k := by
  unfold State.reg; rw [h]

/-! The registers under the updates that do not write them. -/

@[simp] theorem reg_setPc (s : State) (t : Word) (k : Reg) : (s.setPc t).reg k = s.reg k := rfl
@[simp] theorem reg_advance (s : State) (k : Reg) : s.advance.reg k = s.reg k := rfl
@[simp] theorem reg_memWrite (s : State) (a v : Word) (k : Reg) : (s.memWrite a v).reg k = s.reg k := rfl
@[simp] theorem reg_halt (s : State) (k : Reg) : s.halt.reg k = s.reg k := rfl
@[simp] theorem reg_raise (kind : TrapKind) (p : Word) (s : State) (k : Reg) : (raise kind p s).reg k = s.reg k := rfl
@[simp] theorem reg_addCompute (s : State) (c : Nat) (k : Reg) : (s.addCompute c).reg k = s.reg k := rfl
@[simp] theorem reg_addIo (s : State) (c : Nat) (k : Reg) : (s.addIo c).reg k = s.reg k := rfl
@[simp] theorem reg_outWrite (s : State) (v : Word) (k : Reg) : (s.outWrite v).reg k = s.reg k := rfl
@[simp] theorem reg_takeInput (s : State) (k : Reg) : s.takeInput.reg k = s.reg k := reg_of_x _ _ _ (takeInput_x s)

/-! ### Ending an instruction -/

/-- `commit` answers a next state always: the instruction's writes, or the trap at its own index on the state before. -/
theorem commit_cases (s : State) (r : Except TrapKind State) :
    (∃ t, r = .ok t ∧ commit s r = .next t) ∨ (∃ kind, r = .error kind ∧ commit s r = .next (raise kind s.pc s)) := by
  cases r with
  | ok t => exact .inl ⟨t, rfl, rfl⟩
  | error kind => exact .inr ⟨kind, rfl, rfl⟩

@[simp] theorem commit_ok (s t : State) : commit s (.ok t) = .next t := rfl
@[simp] theorem commit_error (s : State) (kind : TrapKind) : commit s (.error kind) = .next (raise kind s.pc s) := rfl

@[simp] theorem mapNext_next (f : State → State) (s : State) : mapNext f (.next s) = .next (f s) := rfl

/-- `mapNext` answers a next state exactly where its argument does. -/
theorem mapNext_eq_next (f : State → State) (o : Host.Outcome State Fault Refusal) (t : State) :
    mapNext f o = .next t ↔ ∃ s, o = .next s ∧ f s = t := by
  cases o <;> simp [mapNext]

/-! ### Cost meter -/

theorem chargeCompute_fits (s : State) (c : Nat) (h : s.chargeFits c) : s.chargeCompute c = .ok (s.addCompute c) := by
  simp [State.chargeCompute, h]

theorem chargeCompute_full (s : State) (c : Nat) (h : ¬ s.chargeFits c) : s.chargeCompute c = .error .costOverflow := by
  simp only [State.chargeCompute, h, if_false]

theorem chargeIo_fits (s : State) (c : Nat) (h : s.chargeFits c) : s.chargeIo c = .ok (s.addIo c) := by
  simp [State.chargeIo, h]

theorem chargeIo_full (s : State) (c : Nat) (h : ¬ s.chargeFits c) : s.chargeIo c = .error .costOverflow := by
  simp only [State.chargeIo, h, if_false]

/-- A charge that fits adds exactly its amount to the compute counter. -/
theorem addCompute_toNat (s : State) (c : Nat) (h : s.chargeFits c) :
    (s.cost.compute + BitVec.ofNat 64 c).toNat = s.cost.compute.toNat + c := by
  simp only [State.chargeFits, CostMeter.total, u64Max] at h
  rw [BitVec.toNat_add, BitVec.toNat_ofNat]
  omega

/-- A charge that fits adds exactly its amount to the io counter. -/
theorem addIo_toNat (s : State) (c : Nat) (h : s.chargeFits c) :
    (s.cost.io + BitVec.ofNat 64 c).toNat = s.cost.io.toNat + c := by
  simp only [State.chargeFits, CostMeter.total, u64Max] at h
  rw [BitVec.toNat_add, BitVec.toNat_ofNat]
  omega

/-! ### Results -/

/-- `checked`, case by case. -/
theorem checked_cases (mode : OverflowMode) (v : Int) :
    (inInt64 v ∧ checked mode v = .ok (BitVec.ofInt 64 v)) ∨
    (¬ inInt64 v ∧ mode = .fault ∧ checked mode v = .error .arithmeticOverflow) ∨
    (¬ inInt64 v ∧ mode = .wrap ∧ checked mode v = .ok (BitVec.ofInt 64 (wrap64 v))) := by
  unfold checked
  by_cases h : inInt64 v
  · exact .inl ⟨h, by rw [if_pos h]⟩
  · right
    rw [if_neg h]
    cases mode with
    | fault => exact .inl ⟨h, rfl, rfl⟩
    | wrap => exact .inr ⟨h, rfl, rfl⟩

/-- Bringing an exact result back modulo 2^64 does not depend on wrapping it first. -/
theorem ofInt_wrap64 (v : Int) : BitVec.ofInt 64 (wrap64 v) = BitVec.ofInt 64 v := by
  apply BitVec.eq_of_toInt_eq
  rw [BitVec.toInt_ofInt, BitVec.toInt_ofInt]
  unfold wrap64
  simp only [Int.bmod_def]
  omega

/-- An exact result within `Int64` is the value of its word. -/
theorem toInt_ofInt_of_inInt64 (v : Int) (h : inInt64 v) : (BitVec.ofInt 64 v).toInt = v := by
  rw [BitVec.toInt_ofInt]
  simp only [Int.bmod_def]
  obtain ⟨h1, h2⟩ := h
  simp only [int64Min, int64Max] at h1 h2
  omega

/-- Every word's value is an `Int64`. -/
theorem inInt64_toInt (w : Word) : inInt64 w.toInt := by
  have h1 := BitVec.le_toInt w
  have h2 := BitVec.toInt_lt (x := w)
  simp only [inInt64, int64Min, int64Max]
  norm_num at h1 h2
  omega

/-! ### Input port -/

/-- `inRead`, case by case. -/
theorem inRead_cases (s : State) :
    (s.par.inputMode = .mockZero ∧ s.inRead = .ok 0) ∨
    (s.par.inputMode = .queue ∧ ∃ h : s.icur < s.input.length, s.inRead = .ok s.input[s.icur]) ∨
    (s.par.inputMode = .queue ∧ s.par.readOffByOne = true ∧ s.icur = s.input.length ∧
      s.inRead = .ok (Config.inputDraw s.draws)) ∨
    (s.par.inputMode = .queue ∧ s.input.length + (if s.par.readOffByOne then 1 else 0) ≤ s.icur ∧
      s.inRead = .error .inputExhausted) := by
  unfold State.inRead
  cases hm : s.par.inputMode with
  | mockZero => exact .inl ⟨rfl, rfl⟩
  | queue =>
    right
    by_cases h : s.icur < s.input.length
    · exact .inl ⟨rfl, h, by simp [h]⟩
    · right
      have hn : s.input[s.icur]? = none := by simp; omega
      by_cases he : s.extraRead = true
      · left
        have he' := he
        simp only [State.extraRead, Bool.and_eq_true, beq_iff_eq] at he'
        exact ⟨rfl, he'.1, he'.2, by simp [hn, he]⟩
      · right
        refine ⟨rfl, ?_, by simp [hn, he]⟩
        simp only [State.extraRead, Bool.and_eq_true, beq_iff_eq, not_and] at he
        split
        · have := he ‹_›; omega
        · omega

/-- The cursor after READ's commit, in queue mode: one on. -/
theorem takeInput_icur_queue (s : State) (h : s.par.inputMode = .queue) : s.takeInput.icur = s.icur + 1 := by
  unfold State.takeInput; rw [h]

/-- The cursor after READ's commit, in mock_zero mode: where it was. -/
theorem takeInput_icur_mock (s : State) (h : s.par.inputMode = .mockZero) : s.takeInput.icur = s.icur := by
  unfold State.takeInput; rw [h]

/-- READ's commit on the input side changes the cursor and the counter of draws only. -/
theorem takeInput_only (s : State) : s.takeInput = { s with icur := s.takeInput.icur, draws := s.takeInput.draws } := by
  unfold State.takeInput; split <;> rfl

/-! ### Fetch and the bound of pc -/

/-- Fetch answers an entry exactly where pc is in 0..N-1. -/
theorem fetch_isSome (s : State) : (∃ e, s.fetch = some e) ↔ s.inBounds := by
  unfold State.fetch
  split
  · rename_i h
    rw [← Option.isSome_iff_exists]
    simp only [isSome_getElem?]
    omega
  · rename_i h
    simp [h]

theorem fetch_eq_none (s : State) : s.fetch = none ↔ ¬ s.inBounds := by
  rw [← fetch_isSome, ← Option.isSome_iff_exists, Bool.not_eq_true, Option.isSome_eq_false_iff, Option.isNone_iff_eq_none]

/-- The bound check raises OutOfBounds at the offending pc, or leaves the state as it is. -/
theorem boundCheck_eq (s : State) :
    s.boundCheck = if s.rs = .ready ∧ ¬ s.inBounds then raise .outOfBounds s.pc s else s := rfl

/-- After the bound check a Ready state has pc in range. -/
theorem boundCheck_ready (s : State) (h : s.boundCheck.rs = .ready) : s.boundCheck = s ∧ s.rs = .ready ∧ s.inBounds := by
  rw [boundCheck_eq] at h ⊢
  split at h
  · cases h
  · rename_i hc
    rw [if_neg hc]
    exact ⟨rfl, h, Decidable.not_not.1 fun hb => hc ⟨h, hb⟩⟩

/-- pc + 1 is exact where pc is in range (R25). -/
theorem pc_add_one_toInt (s : State) (h : s.inBounds) (hp : s.prog.length ≤ programMax) :
    (s.pc + 1).toInt = s.pc.toInt + 1 := by
  have h1 : (s.pc + 1).toInt = (s.pc.toInt + 1).bmod (2 ^ 64) := by
    rw [BitVec.toInt_add]; rfl
  obtain ⟨ha, hb⟩ := h
  simp only [programMax] at hp
  rw [h1, Int.bmod_def]
  omega

end Sys2Proof.Machine
end

