-- ==== Sys2Proof/Laws/Exec.lean ====
section
/-! SUPPORT. Once, everything an instruction can do to the state: trap at its own index with no other effect, halt, or
one of six ways to write. Invariants follow from this list, not from the meanings. -/

namespace Sys2Proof.Machine

/-- The ways an instruction that completes can change the state, each with a charge that fits. -/
inductive Effect (s : State) : State → Prop where
  /-- one register, and on to the next index -/
  | register (c : Nat) (k : Reg) (v : Word) (h : s.chargeFits c) : Effect s (((s.addCompute c).setReg k v).advance)
  /-- SWP -/
  | exchange (c : Nat) (k : Reg) (h : s.chargeFits c) :
      Effect s ((((s.addCompute c).setReg 0 (s.reg k)).setReg k (s.reg 0)).advance)
  /-- STORE, RSTORE -/
  | store (c : Nat) (a v : Word) (h : s.chargeFits c) : Effect s (((s.addCompute c).memWrite a v).advance)
  /-- JUMP, JPOS, JZERO, RTRN -/
  | jump (c : Nat) (p : Word) (h : s.chargeFits c) : Effect s ((s.addCompute c).setPc p)
  /-- CALL -/
  | call (c : Nat) (p : Word) (h : s.chargeFits c) : Effect s (((s.addCompute c).setReg 0 (s.pc + 1)).setPc p)
  /-- WRITE -/
  | output (c : Nat) (h : s.chargeFits c) : Effect s (((s.addIo c).outWrite (s.reg 0)).advance)
  /-- READ, with input left -/
  | input (c : Nat) (v : Word) (h : s.chargeFits c)
      (hi : s.par.inputMode = .queue → s.icur + 1 ≤ s.input.length + (if s.par.readOffByOne then 1 else 0)) :
      Effect s ((((s.addIo c).setReg 0 v).takeInput).advance)
  /-- HALT -/
  | halt : Effect s s.halt

theorem exec_charged (s : State) (c : Nat) (f : State → State) :
    ((s.chargeCompute c >>= fun s1 => pure (f s1) : Except TrapKind State) = .error .costOverflow ∧ ¬ s.chargeFits c) ∨
    ((s.chargeCompute c >>= fun s1 => pure (f s1) : Except TrapKind State) = .ok (f (s.addCompute c)) ∧ s.chargeFits c) := by
  by_cases h : s.chargeFits c
  · right; rw [chargeCompute_fits s c h]; exact ⟨rfl, h⟩
  · left; rw [chargeCompute_full s c h]; exact ⟨rfl, h⟩

theorem exec_chargedIo (s : State) (c : Nat) (f : State → State) :
    ((s.chargeIo c >>= fun s1 => pure (f s1) : Except TrapKind State) = .error .costOverflow ∧ ¬ s.chargeFits c) ∨
    ((s.chargeIo c >>= fun s1 => pure (f s1) : Except TrapKind State) = .ok (f (s.addIo c)) ∧ s.chargeFits c) := by
  by_cases h : s.chargeFits c
  · right; rw [chargeIo_fits s c h]; exact ⟨rfl, h⟩
  · left; rw [chargeIo_full s c h]; exact ⟨rfl, h⟩

/-- A meaning of the form "charge compute, then write" traps CostOverflow or writes. -/
theorem commit_charged (s : State) (c : Nat) (f : State → State) :
    (commit s (s.chargeCompute c >>= fun s1 => pure (f s1)) = .next (raise .costOverflow s.pc s) ∧ ¬ s.chargeFits c) ∨
    (commit s (s.chargeCompute c >>= fun s1 => pure (f s1)) = .next (f (s.addCompute c)) ∧ s.chargeFits c) := by
  rcases exec_charged s c f with ⟨h, hc⟩ | ⟨h, hc⟩
  · left; exact ⟨by rw [h]; rfl, hc⟩
  · right; exact ⟨by rw [h]; rfl, hc⟩

/-- A meaning of the form "charge io, then write" traps CostOverflow or writes. -/
theorem commit_chargedIo (s : State) (c : Nat) (f : State → State) :
    (commit s (s.chargeIo c >>= fun s1 => pure (f s1)) = .next (raise .costOverflow s.pc s) ∧ ¬ s.chargeFits c) ∨
    (commit s (s.chargeIo c >>= fun s1 => pure (f s1)) = .next (f (s.addIo c)) ∧ s.chargeFits c) := by
  rcases exec_chargedIo s c f with ⟨h, hc⟩ | ⟨h, hc⟩
  · left; exact ⟨by rw [h]; rfl, hc⟩
  · right; exact ⟨by rw [h]; rfl, hc⟩

/-- A meaning of the form "check a result, charge compute, then write one register". -/
theorem commit_checked (s : State) (v : Int) (c : Nat) (f : Word → State → State) :
    (commit s (checked s.par.overflowMode v >>= fun w => s.chargeCompute c >>= fun s1 => pure (f w s1)) =
        .next (raise .arithmeticOverflow s.pc s) ∧ ¬ inInt64 v ∧ s.par.overflowMode = .fault) ∨
    ((inInt64 v ∨ s.par.overflowMode = .wrap) ∧ ¬ s.chargeFits c ∧
      commit s (checked s.par.overflowMode v >>= fun w => s.chargeCompute c >>= fun s1 => pure (f w s1)) =
        .next (raise .costOverflow s.pc s)) ∨
    ((inInt64 v ∨ s.par.overflowMode = .wrap) ∧ s.chargeFits c ∧
      commit s (checked s.par.overflowMode v >>= fun w => s.chargeCompute c >>= fun s1 => pure (f w s1)) =
        .next (f (BitVec.ofInt 64 v) (s.addCompute c))) := by
  rcases checked_cases s.par.overflowMode v with ⟨hv, h⟩ | ⟨hv, hm, h⟩ | ⟨hv, hm, h⟩
  · right
    rw [h]
    rcases commit_charged s c (f (BitVec.ofInt 64 v)) with ⟨h', hc⟩ | ⟨h', hc⟩
    · left; exact ⟨.inl hv, hc, h'⟩
    · right; exact ⟨.inl hv, hc, h'⟩
  · left; rw [h]; exact ⟨rfl, hv, hm⟩
  · right
    rw [h, ofInt_wrap64]
    rcases commit_charged s c (f (BitVec.ofInt 64 v)) with ⟨h', hc⟩ | ⟨h', hc⟩
    · left; exact ⟨.inr hm, hc, h'⟩
    · right; exact ⟨.inr hm, hc, h'⟩

/-- From every state every instruction traps at its own index with no other effect, or completes with one `Effect`. -/
theorem exec_effect (i : Instr) (s : State) :
    (∃ kind, exec i s = .next (raise kind s.pc s)) ∨ (∃ t, exec i s = .next t ∧ Effect s t) := by
  have simple : ∀ (o : Host.Outcome State Fault Refusal) (c : Nat) (f : State → State),
      o = commit s (s.chargeCompute c >>= fun s1 => pure (f s1)) → (s.chargeFits c → Effect s (f (s.addCompute c))) →
      (∃ kind, o = .next (raise kind s.pc s)) ∨ (∃ t, o = .next t ∧ Effect s t) := by
    intro o c f ho he
    rcases commit_charged s c f with ⟨h, _⟩ | ⟨h, hc⟩
    · exact .inl ⟨_, ho.trans h⟩
    · exact .inr ⟨_, ho.trans h, he hc⟩
  have arith : ∀ (o : Host.Outcome State Fault Refusal) (v : Int) (c : Nat) (k : Reg),
      o = commit s (checked s.par.overflowMode v >>= fun w => s.chargeCompute c >>= fun s1 =>
        pure ((s1.setReg k w).advance)) →
      (∃ kind, o = .next (raise kind s.pc s)) ∨ (∃ t, o = .next t ∧ Effect s t) := by
    intro o v c k ho
    rcases commit_checked s v c (fun w s1 => (s1.setReg k w).advance) with ⟨h, _⟩ | ⟨_, _, h⟩ | ⟨_, hc, h⟩
    · exact .inl ⟨_, ho.trans h⟩
    · exact .inl ⟨_, ho.trans h⟩
    · exact .inr ⟨_, ho.trans h, .register c k _ hc⟩
  cases i with
  | read =>
    have key : ∀ v : Word, s.inRead = .ok v →
        (s.par.inputMode = .queue → s.icur + 1 ≤ s.input.length + (if s.par.readOffByOne then 1 else 0)) →
        (∃ kind, execRead s = .next (raise kind s.pc s)) ∨ (∃ t, execRead s = .next t ∧ Effect s t) := by
      intro v hv hi
      have heq : execRead s = commit s (s.chargeIo s.par.cost.read >>= fun s1 =>
          pure ((s1.setReg r0 v).takeInput.advance)) := by
        unfold execRead; rw [hv]; rfl
      rcases commit_chargedIo s s.par.cost.read (fun s1 => (s1.setReg r0 v).takeInput.advance) with ⟨h, _⟩ | ⟨h, hc⟩
      · exact .inl ⟨_, heq.trans h⟩
      · exact .inr ⟨_, heq.trans h, .input _ v hc hi⟩
    rcases inRead_cases s with ⟨hm, h⟩ | ⟨hm, hlt, h⟩ | ⟨hm, ho, hl, h⟩ | ⟨hm, hle, h⟩
    · exact key _ h (by rw [hm]; intro h; cases h)
    · exact key _ h (by intro _; split <;> omega)
    · exact key _ h (by intro _; rw [if_pos ho]; omega)
    · left
      refine ⟨.inputExhausted, ?_⟩
      show execRead s = _
      unfold execRead; rw [h]; rfl
  | write =>
    rcases commit_chargedIo s s.par.cost.write (fun s1 => (s1.outWrite (s.reg r0)).advance) with ⟨h, _⟩ | ⟨h, hc⟩
    · exact .inl ⟨_, h⟩
    · exact .inr ⟨_, h, .output _ hc⟩
  | load a => exact simple _ s.par.cost.load _ rfl (fun hc => .register _ _ _ hc)
  | store a => exact simple _ s.par.cost.store _ rfl (fun hc => .store _ _ _ hc)
  | rload k => exact simple _ s.par.cost.rload _ rfl (fun hc => .register _ _ _ hc)
  | rstore k => exact simple _ s.par.cost.rstore _ rfl (fun hc => .store _ _ _ hc)
  | add k => exact arith _ _ _ _ rfl
  | sub k => exact arith _ _ _ _ rfl
  | swp k => exact simple _ s.par.cost.swp _ rfl (fun hc => .exchange _ k hc)
  | rst k => exact simple _ s.par.cost.rst _ rfl (fun hc => .register _ _ _ hc)
  | inc k => exact arith _ _ _ _ rfl
  | dec k => exact simple _ s.par.cost.dec _ rfl (fun hc => .register _ _ _ hc)
  | shl k => exact arith _ _ _ _ rfl
  | shr k => exact simple _ s.par.cost.shr _ rfl (fun hc => .register _ _ _ hc)
  | jump t => exact simple _ s.par.cost.jump _ rfl (fun hc => .jump _ _ hc)
  | jpos t =>
    refine simple _ s.par.cost.jpos (fun s1 => branchTo (isPositive (s.reg r0)) t s1) rfl (fun hc => ?_)
    show Effect s (branchTo (isPositive (s.reg r0)) t (s.addCompute s.par.cost.jpos))
    unfold branchTo
    split
    · exact .jump _ _ hc
    · exact .jump _ (s.pc + 1) hc
  | jzero t =>
    refine simple _ s.par.cost.jzero (fun s1 => branchTo (isZero (s.reg r0)) t s1) rfl (fun hc => ?_)
    show Effect s (branchTo (isZero (s.reg r0)) t (s.addCompute s.par.cost.jzero))
    unfold branchTo
    split
    · exact .jump _ _ hc
    · exact .jump _ (s.pc + 1) hc
  | call t => exact simple _ s.par.cost.call _ rfl (fun hc => .call _ _ hc)
  | rtrn => exact simple _ s.par.cost.rtrn _ rfl (fun hc => .jump _ _ hc)
  | halt => exact .inr ⟨_, rfl, .halt⟩

end Sys2Proof.Machine
end

