-- ==== Sys2Proof/Laws/Step.lean ====
section
/-! SUPPORT. Once, what a step command can do: what the session adds around the cycle changes the log and the count of
steps only. -/

namespace Sys2Proof.Machine

/-- Logging a step changes the log only. -/
theorem logStep_only_log (s t : State) : State.logStep s t = { t with log := (State.logStep s t).log } :=
  pushLogs_only_log (stepEntries s t) t

/-- The core's part is untouched by what the session adds to a step. -/
@[simp] theorem core_logStep_countStep (s t : State) : ((State.logStep s t).countStep).core = t.core := by
  rw [logStep_only_log]; rfl

@[simp] theorem core_pushLog (e : LogEntry) (s : State) : (s.pushLog e).core = s.core := by
  unfold State.pushLog; split <;> rfl

/-- Logging one entry changes the log only, by the bounded append where a log is kept. -/
theorem pushLog_eq (e : LogEntry) (s : State) :
    s.pushLog e = { s with log := if s.keepsLog then appendBounded s.par.logCapacity s.log e else s.log } := by
  unfold State.pushLog; split <;> rfl

/-- A bounded append never exceeds the capacity, whatever the log before. -/
theorem appendBounded_length (capacity : Nat) (log : List LogEntry) (e : LogEntry) :
    (appendBounded capacity log e).length ≤ capacity := by
  simp only [appendBounded, List.length_drop, List.length_append, List.length_singleton]; omega

/-- A log within its capacity stays so. -/
theorem pushLogs_length (es : List LogEntry) :
    ∀ t : State, t.log.length ≤ t.par.logCapacity → (t.pushLogs es).log.length ≤ t.par.logCapacity := by
  induction es with
  | nil => intro t h; exact h
  | cons e es ih =>
    intro t h
    have h1 : (t.pushLog e).log.length ≤ (t.pushLog e).par.logCapacity := by
      rw [pushLog_par, pushLog_eq]
      dsimp only
      split
      · exact appendBounded_length _ _ _
      · exact h
    have h2 := ih (t.pushLog e) h1
    rw [pushLog_par] at h2
    exact h2

/-- A step that can run is one cycle, logged and counted. -/
theorem step_of_canStep (s : State) (h : s.canStep) :
    step s = mapNext (fun t => (State.logStep s t).countStep) (cycle s) := by
  obtain ⟨h1, h2, h3⟩ := h
  simp [step, whileInSession, stepCommand, h1, h2, h3]

/-- A step when the run is over logs a refusal, and that is all. -/
theorem step_of_over (s : State) (he : s.ended = false) (hr : s.rs ≠ .ready) : step s = .next (s.pushLog .refused) := by
  cases hs : s.rs with
  | ready => exact absurd hs hr
  | halted => simp [step, whileInSession, stepCommand, he, hs]
  | trapped => simp [step, whileInSession, stepCommand, he, hs]

/-- What a step command that answers a next state can be: one logged and counted cycle, or a logged refusal. -/
theorem step_cases (s t : State) (h : step s = .next t) :
    (s.canStep ∧ ∃ u, cycle s = .next u ∧ t = (State.logStep s u).countStep) ∨
    (s.ended = false ∧ s.rs ≠ .ready ∧ t = s.pushLog .refused) := by
  unfold step whileInSession at h
  split at h
  · cases h
  · rename_i he
    have he : s.ended = false := by simpa using he
    unfold stepCommand at h
    cases hr : s.rs with
    | ready =>
      left
      simp only [hr] at h
      split at h
      · cases h
      · rename_i hc
        obtain ⟨u, hu, hut⟩ := (mapNext_eq_next _ _ _).1 h
        exact ⟨⟨he, hr, by simpa using hc⟩, u, hu, hut.symm⟩
    | halted => right; simp only [hr] at h; cases h; exact ⟨he, by simp, rfl⟩
    | trapped => right; simp only [hr] at h; cases h; exact ⟨he, by simp, rfl⟩

/-- What a cycle can be: the fetch out of bounds, an illegal entry, or an instruction with the bound check after it. -/
theorem cycle_cases (s : State) :
    (s.fetch = none ∧ cycle s = .next (raise .outOfBounds s.pc s)) ∨
    (∃ e why, s.fetch = some e ∧ e.decode = .illegal why ∧ cycle s = .next (raise .illegalInstruction s.pc s)) ∨
    (∃ e i t, s.fetch = some e ∧ e.decode = .ok i ∧ exec i s = .next t ∧ cycle s = .next t.boundCheck) := by
  unfold cycle
  cases hf : s.fetch with
  | none => exact .inl ⟨rfl, rfl⟩
  | some e =>
    right
    cases hd : e.decode with
    | illegal why => exact .inl ⟨e, why, rfl, hd, by simp [runDecoded, hd]⟩
    | ok i =>
      right
      rcases exec_effect i s with ⟨kind, h⟩ | ⟨t, h, _⟩
      · exact ⟨e, i, _, rfl, hd, h, by simp [runDecoded, hd, h]⟩
      · exact ⟨e, i, t, rfl, hd, h, by simp [runDecoded, hd, h]⟩

/-- A run of any core of `n + 1` steps is one step and a run of `n`. -/
theorem run_unfold (m : Host.Core) (n : Nat) (s : m.State) :
    m.run (n + 1) s =
      match m.step s with
      | .next t => m.run n t
      | .fault r => .fault r
      | .refused r => .refused r := rfl

/-- A run of `n + 1` steps is one step and a run of `n`. -/
theorem run_succ (n : Nat) (s : State) :
    Host.Core.run core (n + 1) s =
      match step s with
      | .next t => Host.Core.run core n t
      | .fault r => .fault r
      | .refused r => .refused r := by
  refine (run_unfold core n s).trans ?_
  have h : core.step s = step s := rfl
  rw [h]
  cases step s <;> rfl

end Sys2Proof.Machine
end

