-- ==== Sys2Proof/Laws/Drivers.lean ====
section
/-! SUPPORT. Once, what the BatchDriver's operations can do: the loop of one run, one program, and a batch. -/

namespace Sys2Proof.Machine

/-- A run that has its result is looked at no further. -/
theorem batchRun_of_result (fuel : Nat) (s : State) (r : BatchResult) (h : s.batchResult = some r) : batchRun fuel s = s := by
  cases fuel with
  | zero => rfl
  | succ n => simp [batchRun, h]

/-- A run without a result yet is stepped. -/
theorem batchRun_step (fuel : Nat) (s t : State) (h : s.batchResult = none) (hs : step s = .next t) :
    batchRun (fuel + 1) s = batchRun fuel t := by
  simp [batchRun, h, hs]

/-- A step that runs starts from a state without a batch result. -/
theorem batchResult_of_canStep (s : State) (h : s.canStep) : s.batchResult = none := by
  simp [State.batchResult, h.2.1, h.2.2]

/-- A program has its result exactly when its reset is taken and its run has ended. -/
theorem runJob_eq_some (fuel : Nat) (job : BatchJob) (s t : State) (r : BatchResult) :
    runJob fuel job s = some (r, t) ↔
      ∃ u, hostReset job.prog .queue job.input job.init s = .next u ∧ t = batchRun fuel u ∧ t.batchResult = some r := by
  unfold runJob
  cases hostReset job.prog .queue job.input job.init s with
  | next u =>
    simp only [Option.map_eq_some_iff, Prod.mk.injEq, Host.Outcome.next.injEq, exists_eq_left']
    constructor
    · rintro ⟨_, h, rfl, rfl⟩
      exact ⟨rfl, h⟩
    · rintro ⟨rfl, h⟩
      exact ⟨r, h, rfl, rfl⟩
  | fault _ => simp
  | refused _ => simp

/-- The driver hangs at a program without a result. -/
theorem runBatch_of_none (fuel : Nat) (job : BatchJob) (jobs : List BatchJob) (s : State) (h : runJob fuel job s = none) :
    runBatch fuel (job :: jobs) s = [] := by
  simp [runBatch, h]

/-- The driver goes on from the state a program with a result left. -/
theorem runBatch_of_some (fuel : Nat) (job : BatchJob) (jobs : List BatchJob) (s t : State) (r : BatchResult)
    (h : runJob fuel job s = some (r, t)) : runBatch fuel (job :: jobs) s = r :: runBatch fuel jobs t := by
  simp [runBatch, h]

end Sys2Proof.Machine
end

