-- ==== Sys2Proof/Laws/PerInstr.lean ====
section
/-! SUPPORT. The statements made once per instruction (LAWS.json, "per_instruction"): the record of an instruction is
well-formed and decodes back to it (30_encoding.md R60, R61, R65). -/

namespace Sys2Proof.Laws

/-- A register index taken from a register operand lies in 0..7. -/
theorem register_operand_decodes (k : Reg) (mk : Reg → Instr) : decodeRegister (.reg (k.val : Int)) mk = .ok (mk k) := by
  have h : (0 : Int) ≤ (k.val : Int) ∧ (k.val : Int) < 8 := ⟨by omega, by have := k.isLt; omega⟩
  simp [decodeRegister, h]

theorem register_index_ok (k : Reg) : decide ((0 : Int) ≤ (k.val : Int) ∧ (k.val : Int) < 8) = true := by
  have := k.isLt
  simp only [decide_eq_true_eq]; omega

/-- The record of an instruction is well-formed and decodes to that instruction. -/
def RecordForm.Statement (i : Instr) : Prop :=
  i.toRecord.wellFormed = true ∧ i.toRecord.decode = .ok i

theorem RecordForm.read : RecordForm.Statement .read := ⟨rfl, rfl⟩
theorem RecordForm.write : RecordForm.Statement .write := ⟨rfl, rfl⟩
theorem RecordForm.load (a : Word) : RecordForm.Statement (.load a) := ⟨rfl, rfl⟩
theorem RecordForm.store (a : Word) : RecordForm.Statement (.store a) := ⟨rfl, rfl⟩
theorem RecordForm.rload (k : Reg) : RecordForm.Statement (.rload k) := ⟨register_index_ok k, register_operand_decodes k _⟩
theorem RecordForm.rstore (k : Reg) : RecordForm.Statement (.rstore k) := ⟨register_index_ok k, register_operand_decodes k _⟩
theorem RecordForm.add (k : Reg) : RecordForm.Statement (.add k) := ⟨register_index_ok k, register_operand_decodes k _⟩
theorem RecordForm.sub (k : Reg) : RecordForm.Statement (.sub k) := ⟨register_index_ok k, register_operand_decodes k _⟩
theorem RecordForm.swp (k : Reg) : RecordForm.Statement (.swp k) := ⟨register_index_ok k, register_operand_decodes k _⟩
theorem RecordForm.rst (k : Reg) : RecordForm.Statement (.rst k) := ⟨register_index_ok k, register_operand_decodes k _⟩
theorem RecordForm.inc (k : Reg) : RecordForm.Statement (.inc k) := ⟨register_index_ok k, register_operand_decodes k _⟩
theorem RecordForm.dec (k : Reg) : RecordForm.Statement (.dec k) := ⟨register_index_ok k, register_operand_decodes k _⟩
theorem RecordForm.shl (k : Reg) : RecordForm.Statement (.shl k) := ⟨register_index_ok k, register_operand_decodes k _⟩
theorem RecordForm.shr (k : Reg) : RecordForm.Statement (.shr k) := ⟨register_index_ok k, register_operand_decodes k _⟩
theorem RecordForm.jump (t : Word) : RecordForm.Statement (.jump t) := ⟨rfl, rfl⟩
theorem RecordForm.jpos (t : Word) : RecordForm.Statement (.jpos t) := ⟨rfl, rfl⟩
theorem RecordForm.jzero (t : Word) : RecordForm.Statement (.jzero t) := ⟨rfl, rfl⟩
theorem RecordForm.call (t : Word) : RecordForm.Statement (.call t) := ⟨rfl, rfl⟩
theorem RecordForm.rtrn : RecordForm.Statement .rtrn := ⟨rfl, rfl⟩
theorem RecordForm.halt : RecordForm.Statement .halt := ⟨rfl, rfl⟩

end Sys2Proof.Laws
end

