-- ==== Sys2Proof/Tests/Slice0.lean ====
section
/-! SUPPORT. Tests. Expected results come from the spec's worked examples and vectors (95_test_vectors.md; sections 1, 2.1
to 2.7) and from the encodings of 30_encoding.md written out by hand. Then, for every statement of the obligations that
has hypotheses, a witness: a concrete state and operands that meet them, at boundary values where it has several clauses. -/

namespace Sys2Proof.Tests

open Sys2Proof.Machine Sys2Proof.Statements

/-! ### Well-formedness: each check refuses an ill-formed term -/

theorem test_shape_refuses_missing_operand : Record.wellFormed ⟨.add, .absent⟩ = false := by decide
theorem test_shape_refuses_literal_for_register : Record.wellFormed ⟨.inc, .lit 3⟩ = false := by decide
theorem test_shape_refuses_operand_on_none : Record.wellFormed ⟨.halt, .lit 0⟩ = false := by decide
theorem test_index_refuses_8 : Record.indexOk ⟨.add, .reg 8⟩ = false := by decide
theorem test_index_refuses_minus_1 : Record.indexOk ⟨.add, .reg (-1)⟩ = false := by decide
theorem test_wellFormed_accepts : Record.wellFormed ⟨.add, .reg 7⟩ = true := by decide
theorem test_instr_wellFormed : Instr.wellFormed (.swp 7) = true := by decide
theorem test_program_length_refuses_2_63 : programLengthOk 9223372036854775808 = false := by decide
theorem test_program_length_accepts_max : programLengthOk 9223372036854775807 = true := by decide

/-! ### Decoding: every constructor, its word written out from R62 to R64 (opcode byte, then the 64-bit operand) -/

theorem test_decode_read : decodeWord 0x000000000000000000 = .ok (.read) := by decide
theorem test_decode_write : decodeWord 0x010000000000000000 = .ok (.write) := by decide
theorem test_decode_load : decodeWord 0x02FFFFFFFFFFFFFFFB = .ok (.load (-5)) := by decide
theorem test_decode_store : decodeWord 0x038000000000000000 = .ok (.store 0x8000000000000000) := by decide
theorem test_decode_rload : decodeWord 0x040000000000000007 = .ok (.rload 7) := by decide
theorem test_decode_rstore : decodeWord 0x050000000000000002 = .ok (.rstore 2) := by decide
theorem test_decode_add : decodeWord 0x060000000000000000 = .ok (.add 0) := by decide
theorem test_decode_sub : decodeWord 0x070000000000000001 = .ok (.sub 1) := by decide
theorem test_decode_swp : decodeWord 0x080000000000000003 = .ok (.swp 3) := by decide
theorem test_decode_rst : decodeWord 0x090000000000000004 = .ok (.rst 4) := by decide
theorem test_decode_inc : decodeWord 0x0A0000000000000005 = .ok (.inc 5) := by decide
theorem test_decode_dec : decodeWord 0x0B0000000000000006 = .ok (.dec 6) := by decide
theorem test_decode_shl : decodeWord 0x0C0000000000000001 = .ok (.shl 1) := by decide
theorem test_decode_shr : decodeWord 0x0D0000000000000007 = .ok (.shr 7) := by decide
theorem test_decode_jump : decodeWord 0x0E7FFFFFFFFFFFFFFF = .ok (.jump 0x7FFFFFFFFFFFFFFF) := by decide
theorem test_decode_jpos : decodeWord 0x0F0000000000000003 = .ok (.jpos 3) := by decide
theorem test_decode_jzero : decodeWord 0x10000000000000000E = .ok (.jzero 14) := by decide
theorem test_decode_call : decodeWord 0x11000000000000000C = .ok (.call 12) := by decide
theorem test_decode_rtrn : decodeWord 0x120000000000000000 = .ok (.rtrn) := by decide
theorem test_decode_halt : decodeWord 0x130000000000000000 = .ok (.halt) := by decide

theorem test_illegal_register_8 : decodeWord 0x060000000000000008 = .illegal .registerOutOfRange := by decide
theorem test_illegal_register_high_bit : decodeWord 0x098000000000000001 = .illegal .registerOutOfRange := by decide
theorem test_illegal_halt_operand : decodeWord 0x130000000000000001 = .illegal .operandNotZero := by decide
theorem test_illegal_opcode_14 : decodeWord 0x140000000000000000 = .illegal .reservedOpcode := by decide
theorem test_illegal_opcode_FF : decodeWord 0xFFFFFFFFFFFFFFFFFF = .illegal .reservedOpcode := by decide
theorem test_record_register_8 : Record.decode ⟨.add, .reg 8⟩ = .illegal .registerOutOfRange := by decide
theorem test_bytes_store_5 :
    decodeBytes [0x03, 0, 0, 0, 0, 0, 0, 0, 5, 0xAA] = .ok (.store 5, [0xAA]) := by decide
theorem test_bytes_truncated : decodeBytes [0x13, 0, 0, 0, 0, 0, 0, 0] = .error .truncated := by decide
theorem test_table_word_jump : decodeTableWord 72 0x0EFFFFFFFFFFFFFFFF = some (.jump (-1)) := by decide
theorem test_table_word_short : decodeTableWord 8 0 = some .read := by decide

/-! ### Small states

The vectors of 95_test_vectors.md take N = 10 and p0 = 2. -/

/-- A register file with four given registers. -/
def regs (a b c d : Word) : Vector Word 8 := #v[a, b, c, d, 0, 0, 0, 0]

/-- N = 10, pc = 2, queue mode with INPUT = [3, 4], fault mode. -/
def at2 (x : Vector Word 8) : State :=
  { State.resetWith (List.replicate 10 (.word 0x130000000000000000)) [3, 4] x (Params.default .queue) with pc := 2 }

/-- The same with one instruction word at index 2. -/
def running (w : IWord) (x : Vector Word 8) : State :=
  { at2 x with prog := (at2 x).prog.set 2 (.word w) }

/-- The same in mode wrap. -/
def wrapping (s : State) : State := { s with par := { s.par with overflowMode := .wrap } }

/-- The same in mock_zero mode, the StepDriver's. -/
def mocked (s : State) : State := { s with par := { s.par with inputMode := .mockZero } }

/-- The same with the compute counter at `c`. -/
def costing (c : BitVec 64) (s : State) : State := { s with cost := ⟨c, 0⟩ }

/-- The state after, where there is one. -/
def after (o : Host.Outcome State Fault Refusal) : Option State :=
  match o with
  | .next s => some s
  | _ => none

/-- r0, pc, compute, io and trap after: what most vectors of the spec list. -/
def seen (o : Host.Outcome State Fault Refusal) : Option (Word × Word × Nat × Nat × Option TrapRecord) :=
  (after o).map fun t => (t.reg 0, t.pc, t.cost.compute.toNat, t.cost.io.toNat, t.trap)

/-- One register after. -/
def regAfter (o : Host.Outcome State Fault Refusal) (k : Reg) : Option Word := (after o).map fun t => t.reg k

/-! ### Instructions (the vectors of 2.2 to 2.6) -/

theorem test_halt :
    (after (exec .halt (at2 (regs 1 0 0 0)))).map (fun t => (t.rs, t.pc, t.cost.total)) = some (.halted, 2, 0) := by decide
theorem test_jump :
    seen (exec (.jump 7) (at2 (regs 0 0 0 0))) = some (0, 7, 1, 0, none) := by decide
theorem test_jpos_taken :
    seen (exec (.jpos 7) (at2 (regs 0x7FFFFFFFFFFFFFFF 0 0 0))) = some (0x7FFFFFFFFFFFFFFF, 7, 1, 0, none) := by decide
theorem test_jpos_negative :
    seen (exec (.jpos 99) (at2 (regs 0x8000000000000000 0 0 0))) = some (0x8000000000000000, 3, 1, 0, none) := by decide
theorem test_jzero_taken :
    seen (exec (.jzero 7) (at2 (regs 0 0 0 0))) = some (0, 7, 1, 0, none) := by decide
theorem test_jzero_negative :
    seen (exec (.jzero 7) (at2 (regs (-1) 0 0 0))) = some (-1, 3, 1, 0, none) := by decide
theorem test_call :
    seen (exec (.call 7) { at2 (regs 99 0 0 0) with pc := 4 }) = some (5, 7, 1, 0, none) := by decide
theorem test_call_out_of_range :
    seen (step { running 0x130000000000000000 (regs 99 0 0 0) with pc := 4, prog := (at2 (regs 0 0 0 0)).prog.set 4 (.word 0x110000000000000014) }) =
      some (5, 20, 1, 0, some ⟨.outOfBounds, 20⟩) := by decide
theorem test_rtrn :
    seen (exec .rtrn (at2 (regs 5 0 0 0))) = some (5, 5, 1, 0, none) := by decide
theorem test_rtrn_negative :
    seen (step (running 0x120000000000000000 (regs (-3) 0 0 0))) = some (-3, -3, 1, 0, some ⟨.outOfBounds, -3⟩) := by decide
theorem test_load_unset :
    (after (exec (.load 5) (at2 (regs 9 0 0 0)))).map (fun t => (t.reg 0, t.mem, t.cost.compute.toNat)) = some (0, [], 50) := by decide
theorem test_load_negative_address :
    seen (exec (.load (-1)) ((at2 (regs 0 0 0 0)).memWrite (-1) 7)) = some (7, 3, 50, 0, none) := by decide
theorem test_store_zero_materializes :
    (after (exec (.store 5) (at2 (regs 0 0 0 0)))).map (fun t => (t.mem, t.pc)) = some ([(5, 0)], 3) := by decide
theorem test_store_again :
    (after (exec (.store 5) ((at2 (regs 2 0 0 0)).memWrite 5 1))).map (fun t => t.mem.read 5) = some 2 := by decide
theorem test_rload :
    seen (exec (.rload 2) ((at2 (regs 0 0 10 0)).memWrite 10 21)) = some (21, 3, 50, 0, none) := by decide
theorem test_rload_r0 :
    seen (exec (.rload 0) ((at2 (regs 3 0 0 0)).memWrite 3 8)) = some (8, 3, 50, 0, none) := by decide
theorem test_rstore :
    (after (exec (.rstore 2) (at2 (regs 1 0 (-4) 0)))).map (fun t => (t.mem.read (-4), t.cost.compute.toNat)) = some (1, 50) := by decide
theorem test_rstore_r0 :
    (after (exec (.rstore 0) (at2 (regs 6 0 0 0)))).map (fun t => t.mem) = some [(6, 6)] := by decide
theorem test_add_negative :
    seen (exec (.add 1) (at2 (regs (-3) 5 0 0))) = some (2, 3, 5, 0, none) := by decide
theorem test_add_overflow :
    seen (exec (.add 1) (at2 (regs 0x7FFFFFFFFFFFFFFF 1 0 0))) = some (0x7FFFFFFFFFFFFFFF, 2, 0, 0, some ⟨.arithmeticOverflow, 2⟩) ∧
      seen (exec (.add 1) (wrapping (at2 (regs 0x8000000000000000 (-1) 0 0)))) = some (0x7FFFFFFFFFFFFFFF, 3, 5, 0, none) := ⟨by decide, by decide⟩
theorem test_sub_saturates :
    seen (exec (.sub 1) (at2 (regs (-4) 2 0 0))) = some (0, 3, 5, 0, none) ∧
      seen (exec (.sub 1) (at2 (regs 5 (-3) 0 0))) = some (8, 3, 5, 0, none) := ⟨by decide, by decide⟩
theorem test_sub_overflow :
    seen (exec (.sub 1) (at2 (regs 0 0x8000000000000000 0 0))) = some (0, 2, 0, 0, some ⟨.arithmeticOverflow, 2⟩) ∧
      seen (exec (.sub 1) (wrapping (at2 (regs 0x7FFFFFFFFFFFFFFF (-1) 0 0)))) = some (0x8000000000000000, 3, 5, 0, none) := ⟨by decide, by decide⟩
theorem test_swp :
    regAfter (exec (.swp 3) (at2 (regs 1 0 0 2))) 0 = some 2 ∧ regAfter (exec (.swp 3) (at2 (regs 1 0 0 2))) 3 = some 1 := by decide
theorem test_swp_r0 :
    seen (exec (.swp 0) (at2 (regs 5 0 0 0))) = some (5, 3, 5, 0, none) := by decide
theorem test_rst :
    regAfter (exec (.rst 3) (at2 (regs 0 0 0 (-9)))) 3 = some 0 := by decide
theorem test_inc :
    regAfter (exec (.inc 3) (at2 (regs 0 0 0 (-1)))) 3 = some 0 := by decide
theorem test_inc_overflow :
    (after (exec (.inc 3) (at2 (regs 0 0 0 0x7FFFFFFFFFFFFFFF)))).map (fun t => (t.reg 3, t.trap)) =
        some (0x7FFFFFFFFFFFFFFF, some ⟨.arithmeticOverflow, 2⟩) ∧
      regAfter (exec (.inc 3) (wrapping (at2 (regs 0 0 0 0x7FFFFFFFFFFFFFFF)))) 3 = some 0x8000000000000000 := by decide
theorem test_dec_zero :
    regAfter (exec (.dec 2) (at2 (regs 0 0 0 0))) 2 = some 0 ∧ regAfter (exec (.dec 2) (at2 (regs 0 0 1 0))) 2 = some 0 := by decide
theorem test_dec_negative :
    regAfter (exec (.dec 2) (at2 (regs 0 0 (-4) 0))) 2 = some (-4) := by decide
theorem test_shl_negative :
    regAfter (exec (.shl 1) (at2 (regs 0 (-1) 0 0))) 1 = some (-2) ∧
      regAfter (exec (.shl 1) (at2 (regs 0 0xC000000000000000 0 0))) 1 = some 0x8000000000000000 := by decide
theorem test_shl_overflow :
    (after (exec (.shl 1) (at2 (regs 0 0x4000000000000000 0 0)))).map (fun t => t.trap) = some (some ⟨.arithmeticOverflow, 2⟩) ∧
      regAfter (exec (.shl 1) (wrapping (at2 (regs 0 0xBFFFFFFFFFFFFFFF 0 0)))) 1 = some 0x7FFFFFFFFFFFFFFE := by decide
theorem test_shr_floor :
    regAfter (exec (.shr 1) (at2 (regs 0 (-3) 0 0))) 1 = some (-2) ∧ regAfter (exec (.shr 1) (at2 (regs 0 (-1) 0 0))) 1 = some (-1) := by decide
theorem test_shr_min :
    regAfter (exec (.shr 1) (at2 (regs 0 0x8000000000000000 0 0))) 1 = some 0xC000000000000000 ∧
      regAfter (exec (.shr 1) (at2 (regs 0 0x7FFFFFFFFFFFFFFF 0 0))) 1 = some 0x3FFFFFFFFFFFFFFF := by decide
theorem test_read_queue :
    (after (exec .read (at2 (regs 9 0 0 0)))).map (fun t => (t.reg 0, t.icur, t.cost.io.toNat)) = some (3, 1, 100) ∧
      (after (exec .read (mocked (at2 (regs 9 0 0 0))))).map (fun t => (t.reg 0, t.icur, t.cost.io.toNat)) = some (0, 0, 100) := by decide
theorem test_read_exhausted :
    (after (exec .read { at2 (regs 9 0 0 0) with icur := 2 })).map (fun t => (t.reg 0, t.icur, t.cost.io.toNat, t.trap)) =
      some (9, 2, 0, some ⟨.inputExhausted, 2⟩) := by decide
theorem test_write :
    (after (exec .write (at2 (regs 12 0 0 0)))).map (fun t => (t.out, t.reg 0, t.cost.io.toNat)) = some ([12], 12, 100) := by decide
theorem test_write_logged :
    (after (step (mocked (running 0x010000000000000000 (regs 12 0 0 0))))).map (fun t => (t.log, t.steps)) = some ([.write 12], 1) := by decide

/-! ### The step cycle, the session and the hosts (the vectors of 2.7) -/

theorem test_empty_program :
    (after (step State.reset)).map (fun t => (t.trap, t.cost.total, t.log)) =
      some (some ⟨.outOfBounds, 0⟩, 0, [.trap ⟨.outOfBounds, 0⟩]) := by decide
theorem test_reserved_word :
    seen (step (running 0x140000000000000000 (regs 1 0 0 0))) = some (1, 2, 0, 0, some ⟨.illegalInstruction, 2⟩) := by decide
theorem test_cost_limit :
    (after (exec (.inc 1) (costing 0xFFFFFFFFFFFFFFFF (at2 (regs 0 7 0 0))))).map (fun t => (t.reg 1, t.cost.compute, t.trap)) =
      some (7, 0xFFFFFFFFFFFFFFFF, some ⟨.costOverflow, 2⟩) := by decide
theorem test_overflow_at_end_reports_overflow_only :
    seen (step { running 0x130000000000000000 (regs 0x7FFFFFFFFFFFFFFF 1 0 0) with
      pc := 9, prog := (at2 (regs 0 0 0 0)).prog.set 9 (.word 0x060000000000000001) }) =
      some (0x7FFFFFFFFFFFFFFF, 9, 0, 0, some ⟨.arithmeticOverflow, 9⟩) := by decide
theorem test_step_when_halted :
    (after (step { mocked (at2 (regs 0 0 0 0)) with rs := .halted })).map (fun t => (t.rs, t.pc, t.log)) =
      some (.halted, 2, [.refused]) := by decide
theorem test_unknown_command :
    (after (hostCommand (.other "foo") (mocked (at2 (regs 0 0 0 0))))).map (fun t => (t.log, t.rs)) =
      some ([.unknown "foo"], .ready) := by decide
theorem test_log_evicts_oldest :
    appendBounded 3 [.write 1, .write 2, .write 3] (.write 4) = [.write 2, .write 3, .write 4] := by decide
theorem test_fetch_word_runs_after_reset :
    (after (step (State.reset.withFetchWord 72 0x0A0000000000000003))).map (fun t => (t.reg 3, t.pc, t.cost.compute)) =
      some (1, 1, 1) := by decide
theorem test_fetch_word_in_place :
    (after (step ((at2 (regs 0 0 0 0)).withFetchWord 72 0x0E0000000000000007))).map (fun t => (t.pc, t.rs)) =
      some (7, .ready) := by decide
theorem test_batch_results :
    (at2 (regs 0 0 0 0)).batchResult = none ∧
    (costing 5 (at2 (regs 0 0 0 0))).halt.batchResult = some ⟨some 5, true, .empty⟩ ∧
    (raise .outOfBounds 10 (at2 (regs 0 0 0 0))).batchResult = some ⟨none, false, .trapped (some ⟨.outOfBounds, 10⟩)⟩ := by decide

/-- R235, R244: two programs that halt and one that traps have their results; after one that does not end, none has. -/
theorem test_batch_stops_at_endless_run :
    runBatch 5 [⟨[.word 0x130000000000000000], [], regs 0 0 0 0⟩, ⟨[], [], regs 0 0 0 0⟩,
        ⟨[.word 0x130000000000000000], [], regs 0 0 0 0⟩] (at2 (regs 0 0 0 0)) =
      [⟨some 0, true, .empty⟩, ⟨none, false, .trapped (some ⟨.outOfBounds, 0⟩)⟩, ⟨some 0, true, .empty⟩] ∧
    runBatch 5 [⟨[.word 0x130000000000000000], [], regs 0 0 0 0⟩, ⟨[.word 0x0E0000000000000000], [], regs 0 0 0 0⟩,
        ⟨[.word 0x130000000000000000], [], regs 0 0 0 0⟩] (at2 (regs 0 0 0 0)) = [⟨some 0, true, .empty⟩] := by decide

/-! ### Witnesses: the hypotheses of each statement can be met -/

/-- A step that runs an instruction, from what can be evaluated. -/
theorem runs_of (s : State) (i : Instr) (h : s.canStep) (d : s.fetch.map ProgEntry.decode = some (.ok i)) : s.runs i := by
  refine ⟨h, ?_⟩
  cases hf : s.fetch with
  | none => rw [hf] at d; cases d
  | some e => rw [hf] at d; exact ⟨e, rfl, Option.some.inj d⟩

/-- The clauses of `instrRule`, met: an instruction that runs, a charge that just fits, and one that just does not. -/
def ruleWitness (i : Instr) (blocked : State → Option TrapKind) (price : Nat) (s full : State) : Prop :=
  (s.runs i ∧ ∃ t, exec i s = .next t) ∧ (blocked s = none ∧ s.chargeFits price) ∧
    (blocked full = none ∧ ¬ full.chargeFits price)

theorem ruleWitness_of (i : Instr) (blocked : State → Option TrapKind) (price : Nat) (s full : State)
    (h : s.canStep ∧ s.fetch.map ProgEntry.decode = some (.ok i) ∧ (after (exec i s)).isSome = true ∧ blocked s = none ∧
      s.chargeFits price ∧ blocked full = none ∧ ¬ full.chargeFits price) : ruleWitness i blocked price s full := by
  obtain ⟨h1, h2, h3, h4, h5, h6, h7⟩ := h
  refine ⟨⟨runs_of s i h1 h2, ?_⟩, ⟨h4, h5⟩, h6, h7⟩
  cases he : exec i s with
  | next t => exact ⟨t, rfl⟩
  | fault r => rw [he] at h3; cases h3
  | refused r => rw [he] at h3; cases h3

/-- The state of a witness: compute at 2^64 - 1 - price, where the charge just fits. -/
def justFits (w : IWord) (price : Nat) : State := costing (0xFFFFFFFFFFFFFFFF - BitVec.ofNat 64 price) (running w (regs 1 2 3 4))

/-- One more, where it just does not. -/
def justFull (w : IWord) (price : Nat) : State := costing (0xFFFFFFFFFFFFFFFF - BitVec.ofNat 64 price + 1) (running w (regs 1 2 3 4))

theorem witness_JumpRule : ruleWitness (.jump 7) (neverBlocked) 1 (justFits 0x0E0000000000000007 1) (justFull 0x0E0000000000000007 1) :=
  ruleWitness_of _ _ _ _ _ (by decide)
theorem witness_JposRule : ruleWitness (.jpos 7) (neverBlocked) 1 (justFits 0x0F0000000000000007 1) (justFull 0x0F0000000000000007 1) :=
  ruleWitness_of _ _ _ _ _ (by decide)
theorem witness_JzeroRule : ruleWitness (.jzero 7) (neverBlocked) 1 (justFits 0x100000000000000007 1) (justFull 0x100000000000000007 1) :=
  ruleWitness_of _ _ _ _ _ (by decide)
theorem witness_CallRule : ruleWitness (.call 7) (neverBlocked) 1 (justFits 0x110000000000000007 1) (justFull 0x110000000000000007 1) :=
  ruleWitness_of _ _ _ _ _ (by decide)
theorem witness_RtrnRule : ruleWitness (.rtrn) (neverBlocked) 1 (justFits 0x120000000000000000 1) (justFull 0x120000000000000000 1) :=
  ruleWitness_of _ _ _ _ _ (by decide)
theorem witness_LoadRule : ruleWitness (.load 5) (neverBlocked) 50 (justFits 0x020000000000000005 50) (justFull 0x020000000000000005 50) :=
  ruleWitness_of _ _ _ _ _ (by decide)
theorem witness_StoreRule : ruleWitness (.store 5) (neverBlocked) 50 (justFits 0x030000000000000005 50) (justFull 0x030000000000000005 50) :=
  ruleWitness_of _ _ _ _ _ (by decide)
theorem witness_RloadRule : ruleWitness (.rload 2) (neverBlocked) 50 (justFits 0x040000000000000002 50) (justFull 0x040000000000000002 50) :=
  ruleWitness_of _ _ _ _ _ (by decide)
theorem witness_RstoreRule : ruleWitness (.rstore 2) (neverBlocked) 50 (justFits 0x050000000000000002 50) (justFull 0x050000000000000002 50) :=
  ruleWitness_of _ _ _ _ _ (by decide)
theorem witness_AddRule : ruleWitness (.add 1) (fun s => overflowTrap s ((s.reg 0).toInt + (s.reg 1).toInt)) 5 (justFits 0x060000000000000001 5) (justFull 0x060000000000000001 5) :=
  ruleWitness_of _ _ _ _ _ (by decide)
theorem witness_SubRule : ruleWitness (.sub 1) (subTrap 1) 5 (justFits 0x070000000000000001 5) (justFull 0x070000000000000001 5) :=
  ruleWitness_of _ _ _ _ _ (by decide)
theorem witness_SwpRule : ruleWitness (.swp 3) (neverBlocked) 5 (justFits 0x080000000000000003 5) (justFull 0x080000000000000003 5) :=
  ruleWitness_of _ _ _ _ _ (by decide)
theorem witness_RstRule : ruleWitness (.rst 3) (neverBlocked) 1 (justFits 0x090000000000000003 1) (justFull 0x090000000000000003 1) :=
  ruleWitness_of _ _ _ _ _ (by decide)
theorem witness_IncRule : ruleWitness (.inc 3) (fun s => overflowTrap s ((s.reg 3).toInt + 1)) 1 (justFits 0x0A0000000000000003 1) (justFull 0x0A0000000000000003 1) :=
  ruleWitness_of _ _ _ _ _ (by decide)
theorem witness_DecRule : ruleWitness (.dec 3) (neverBlocked) 1 (justFits 0x0B0000000000000003 1) (justFull 0x0B0000000000000003 1) :=
  ruleWitness_of _ _ _ _ _ (by decide)
theorem witness_ShlRule : ruleWitness (.shl 3) (shlTrap 3) 1 (justFits 0x0C0000000000000003 1) (justFull 0x0C0000000000000003 1) :=
  ruleWitness_of _ _ _ _ _ (by decide)
theorem witness_ShrRule : ruleWitness (.shr 3) (neverBlocked) 1 (justFits 0x0D0000000000000003 1) (justFull 0x0D0000000000000003 1) :=
  ruleWitness_of _ _ _ _ _ (by decide)
theorem witness_ReadRule : ruleWitness (.read) (readTrap) 100 (justFits 0x000000000000000000 100) (justFull 0x000000000000000000 100) :=
  ruleWitness_of _ _ _ _ _ (by decide)
theorem witness_WriteRule : ruleWitness (.write) (neverBlocked) 100 (justFits 0x010000000000000000 100) (justFull 0x010000000000000000 100) :=
  ruleWitness_of _ _ _ _ _ (by decide)

theorem witness_HaltRule : (running 0x130000000000000000 (regs 1 2 3 4)).runs .halt := runs_of _ _ (by decide) (by decide)
theorem witness_JposRule_clauses :
    0 < ((at2 (regs 1 0 0 0)).reg 0).toInt ∧ ((at2 (regs 0 0 0 0)).reg 0).toInt ≤ 0 ∧
      ((at2 (regs 0x8000000000000000 0 0 0)).reg 0).toInt ≤ 0 := by decide
theorem witness_JzeroRule_clauses : (at2 (regs 0 0 0 0)).reg 0 = 0 ∧ (at2 (regs 1 0 0 0)).reg 0 ≠ 0 := by decide
theorem witness_CallRule_exact_return :
    (at2 (regs 0 0 0 0)).inBounds ∧ (at2 (regs 0 0 0 0)).prog.length ≤ programMax := by decide
theorem witness_LoadRule_unset :
    (at2 (regs 0 0 0 0)).mem.materialized 5 = false ∧ (at2 (regs 0 0 0 0)).mem.materialized ((at2 (regs 0 0 0 0)).reg 2) = false := by
  decide
theorem witness_StoreRule_other_address : (4 : Word) ≠ 5 := by decide
theorem witness_AddRule_clauses :
    overflowTrap (at2 (regs 0x7FFFFFFFFFFFFFFF 1 0 0)) (((at2 (regs 0x7FFFFFFFFFFFFFFF 1 0 0)).reg 0).toInt + ((at2 (regs 0x7FFFFFFFFFFFFFFF 1 0 0)).reg 1).toInt) =
        some .arithmeticOverflow ∧
      inInt64 (((at2 (regs 0x7FFFFFFFFFFFFFFF 0 0 0)).reg 0).toInt + ((at2 (regs 0x7FFFFFFFFFFFFFFF 0 0 0)).reg 1).toInt) := by decide
theorem witness_SubRule_clauses :
    subTrap 1 (at2 (regs 0 0x8000000000000000 0 0)) = some .arithmeticOverflow ∧
      ((at2 (regs (-1) 0x8000000000000000 0 0)).reg 0).toInt - ((at2 (regs (-1) 0x8000000000000000 0 0)).reg 1).toInt ≤ int64Max ∧
      subTrap 1 (wrapping (at2 (regs 0 0x8000000000000000 0 0))) = none ∧
      int64Max < ((at2 (regs 0 0x8000000000000000 0 0)).reg 0).toInt - ((at2 (regs 0 0x8000000000000000 0 0)).reg 1).toInt := by decide
theorem witness_IncRule_clauses :
    overflowTrap (at2 (regs 0x7FFFFFFFFFFFFFFF 0 0 0)) (((at2 (regs 0x7FFFFFFFFFFFFFFF 0 0 0)).reg 0).toInt + 1) = some .arithmeticOverflow ∧
      ((at2 (regs 0x7FFFFFFFFFFFFFFE 0 0 0)).reg 0).toInt < int64Max ∧
      overflowTrap (wrapping (at2 (regs 0x7FFFFFFFFFFFFFFF 0 0 0))) (((at2 (regs 0x7FFFFFFFFFFFFFFF 0 0 0)).reg 0).toInt + 1) = none ∧
      ((at2 (regs 0x7FFFFFFFFFFFFFFF 0 0 0)).reg 0).toInt = int64Max := by decide
theorem witness_DecRule_clauses :
    0 < ((at2 (regs 1 0 0 0)).reg 0).toInt ∧ ((at2 (regs 0 0 0 0)).reg 0).toInt ≤ 0 := by decide
theorem witness_ShlRule_clauses :
    shlTrap 1 (at2 (regs 0 0x4000000000000000 0 0)) = some .arithmeticOverflow ∧
      shlTrap 1 (at2 (regs 0 0xBFFFFFFFFFFFFFFF 0 0)) = some .arithmeticOverflow ∧
      shlTrap 1 (at2 (regs 0 0x3FFFFFFFFFFFFFFF 0 0)) = none ∧
      inInt64 (2 * ((at2 (regs 0 0xC000000000000000 0 0)).reg 1).toInt) := by decide
theorem witness_ReadRule_clauses :
    readTrap (at2 (regs 0 0 0 0)).endSession = none ∧ (at2 (regs 0 0 0 0)).icur < (at2 (regs 0 0 0 0)).input.length ∧
      readTrap { at2 (regs 0 0 0 0) with icur := 1 } = none ∧
      readTrap { at2 (regs 0 0 0 0) with icur := 2 } = some .inputExhausted ∧
      readTrap { at2 (regs 0 0 0 0) with icur := 2, par := { (at2 (regs 0 0 0 0)).par with readOffByOne := true } } = none ∧
      readTrap { at2 (regs 0 0 0 0) with icur := 3, par := { (at2 (regs 0 0 0 0)).par with readOffByOne := true } } =
        some .inputExhausted ∧
      readTrap (mocked (at2 (regs 0 0 0 0))) = none := by decide

theorem witness_DecodeOfEncode : Instr.wellFormed (.jump (-1)) = true ∧ Instr.wellFormed (.add 7) = true := by decide
theorem witness_EncodeOfDecode : decodeWord 0x040000000000000007 = .ok (.rload 7) := by decide

/-- A call at index 2 of a return at index 7. -/
def callAt2 : State :=
  { at2 (regs 99 0 0 0) with
    prog := ((at2 (regs 0 0 0 0)).prog.set 2 (.word 0x110000000000000007)).set 7 (.word 0x120000000000000000) }

theorem witness_CallThenReturn :
    callAt2.runs (.call 7) ∧ callAt2.par.stepCeiling = none ∧
      callAt2.chargeFits (callAt2.par.cost.call + callAt2.par.cost.rtrn) ∧ (0 : Int) ≤ (7 : Word).toInt ∧
      callAt2.prog[(7 : Word).toInt.toNat]? = some (.word 0x120000000000000000) ∧
      ProgEntry.decode (.word 0x120000000000000000) = .ok .rtrn ∧ callAt2.pc.toInt + 1 < callAt2.prog.length ∧
      callAt2.prog.length ≤ programMax :=
  ⟨runs_of _ _ (by decide) (by decide), by decide, by decide, by decide, by decide, by decide, by decide, by decide⟩

theorem witness_SwpTwiceRestores : ∃ t u, (at2 (regs 1 0 0 2)).chargeFits (5 + 5) ∧
    exec (.swp 3) (at2 (regs 1 0 0 2)) = .next t ∧ exec (.swp 3) t = .next u := ⟨_, _, by decide, rfl, rfl⟩
theorem witness_SubDecNonNegative :
    ∃ t u, (at2 (regs 1 0 0 0)).par.overflowMode = .fault ∧ exec (.sub 1) (at2 (regs 1 0 0 0)) = .next t ∧
      (at2 (regs 1 0 0 0)).rs = .ready ∧ t.rs = .ready ∧
      exec (.dec 1) (at2 (regs 1 0 0 0)) = .next u ∧ 0 ≤ ((at2 (regs 1 0 0 0)).reg 1).toInt :=
  ⟨_, _, rfl, rfl, rfl, rfl, rfl, by decide⟩

/-- The same with the program cut to N = 3, so that index 2 is the last. -/
def atLast (s : State) : State := { s with prog := s.prog.take 3 }

theorem witness_StepLogsWritesAndTraps :
    (mocked (running 0x010000000000000000 (regs 12 0 0 0))).runs .write ∧
      (mocked (running 0x010000000000000000 (regs 12 0 0 0))).chargeFits 100 ∧
      (mocked (running 0x010000000000000000 (regs 12 0 0 0))).par.inputMode = .mockZero ∧
      (2 : Word).toInt + 1 < ((mocked (running 0x010000000000000000 (regs 12 0 0 0))).prog.length : Int) ∧
      (mocked (running 0x010000000000000000 (regs 12 0 0 0))).prog.length ≤ programMax ∧
      (atLast (mocked (running 0x010000000000000000 (regs 12 0 0 0)))).runs .write ∧
      (2 : Word).toInt + 1 = ((atLast (mocked (running 0x010000000000000000 (regs 12 0 0 0)))).prog.length : Int) :=
  ⟨runs_of _ _ (by decide) (by decide), by decide, by decide, by decide, by decide, runs_of _ _ (by decide) (by decide), by decide⟩

/-- The log and the run state after. -/
def logged (o : Host.Outcome State Fault Refusal) : Option (List LogEntry × RunState) := (after o).map fun t => (t.log, t.rs)

/-- The clauses about any step: neither entry, a Trap entry, a Write entry, both, and queue mode. -/
theorem witness_StepLogsWritesAndTraps_clauses :
    (mocked (running 0x010000000000000000 (regs 12 0 0 0))).canStep ∧
    logged (step (mocked (running 0x090000000000000001 (regs 0 0 0 0)))) = some ([], .ready) ∧
    logged (step (mocked (running 0x140000000000000000 (regs 0 0 0 0)))) =
      some ([.trap ⟨.illegalInstruction, 2⟩], .trapped) ∧
    logged (step (mocked (running 0x010000000000000000 (regs 12 0 0 0)))) = some ([.write 12], .ready) ∧
    logged (step (atLast (mocked (running 0x010000000000000000 (regs 12 0 0 0))))) =
      some ([.write 12, .trap ⟨.outOfBounds, 3⟩], .trapped) ∧
    logged (step (atLast (running 0x010000000000000000 (regs 12 0 0 0)))) = some ([], .trapped) := by decide
theorem witness_MockModeNeverExhausts :
    ∃ u, step (mocked (running 0x000000000000000000 (regs 12 0 0 0))) = .next u ∧
      (mocked (running 0x000000000000000000 (regs 12 0 0 0))).rs = .ready ∧
      (mocked (running 0x000000000000000000 (regs 12 0 0 0))).par.inputMode = .mockZero ∧
      (mocked (running 0x000000000000000000 (regs 12 0 0 0))).trap = none := ⟨_, rfl, rfl, rfl, rfl⟩

theorem witness_CheckedRule : inInt64 9223372036854775807 ∧ ¬ inInt64 9223372036854775808 ∧ ¬ inInt64 (-9223372036854775809) := by
  decide
theorem witness_ChargeRule :
    (justFits 0 1).cost.compute.toNat + (justFits 0 1).cost.io.toNat + 1 ≤ 2 ^ 64 - 1 ∧
      (justFull 0 1).cost.compute.toNat + (justFull 0 1).cost.io.toNat + 1 > 2 ^ 64 - 1 := by decide
theorem witness_MemoryExtensional :
    Memory.wf (Memory.write (Memory.write [] 5 1) (-1) 2) ∧ Memory.wf (Memory.write (Memory.write [] (-1) 2) 5 1) ∧
      Memory.write (Memory.write [] 5 1) (-1) 2 = Memory.write (Memory.write [] (-1) 2) 5 1 := by decide

theorem witness_StepRunsDecoded :
    (running 0x060000000000000001 (regs 1 2 0 0)).canStep ∧
      (running 0x060000000000000001 (regs 1 2 0 0)).fetch = some (.word 0x060000000000000001) ∧
      ProgEntry.decode (.word 0x060000000000000001) = .ok (.add 1) ∧ Instr.wellFormed (.add 1) = true := by decide
theorem witness_BoundCheckAfterStep :
    ∃ t, (running 0x0E000000000000000A (regs 0 0 0 0)).runs (.jump 10) ∧
      exec (.jump 10) (running 0x0E000000000000000A (regs 0 0 0 0)) = .next t ∧ t.rs = .ready ∧ ¬ t.inBounds :=
  ⟨_, runs_of _ _ (by decide) (by decide), rfl, rfl, by decide⟩
theorem witness_TrapPriorityAndPrecision :
    State.reset.canStep ∧ firstTrap State.reset = some .outOfBounds ∧
      firstTrap (running 0x140000000000000000 (regs 0 0 0 0)) = some .illegalInstruction ∧
      firstTrap { running 0x000000000000000000 (regs 0 0 0 0) with icur := 2 } = some .inputExhausted ∧
      firstTrap (running 0x060000000000000001 (regs 0x7FFFFFFFFFFFFFFF 1 0 0)) = some .arithmeticOverflow ∧
      firstTrap (justFull 0x0A0000000000000003 1) = some .costOverflow ∧
      firstTrap (running 0x0A0000000000000003 (regs 0 0 0 0)) = none := by decide
theorem witness_FetchTraps :
    State.reset.canStep ∧ ¬ State.reset.inBounds ∧ (running 0x140000000000000000 (regs 0 0 0 0)).canStep ∧
      (running 0x140000000000000000 (regs 0 0 0 0)).fetch = some (.word 0x140000000000000000) ∧
      ProgEntry.decode (.word 0x140000000000000000) = .illegal .reservedOpcode := by decide
theorem witness_TrapKindsByInstruction :
    ∃ t, (at2 (regs 0x7FFFFFFFFFFFFFFF 1 0 0)).rs = .ready ∧ exec (.add 1) (at2 (regs 0x7FFFFFFFFFFFFFFF 1 0 0)) = .next t ∧ t.rs = .trapped :=
  ⟨_, rfl, rfl, rfl⟩
theorem witness_RegisterUseTable :
    (∃ t, exec (.add 1) (at2 (regs 1 2 3 4)) = .next t) ∧ ¬ mayWrite (.add 1) 1 ∧ ¬ mayRead (.load 5) 0 ∧ mayWrite (.load 5) 0 :=
  ⟨⟨_, rfl⟩, by simp [mayWrite], by simp [mayRead], by simp [mayWrite]⟩
theorem witness_OnlyStoresChangeMemory :
    (∃ t, exec (.rstore 2) (at2 (regs 1 2 3 4)) = .next t) ∧ storeAddress (.rstore 2) (at2 (regs 1 2 3 4)) = some 3 ∧
      storeAddress (.add 1) (at2 (regs 1 2 3 4)) = none := ⟨⟨_, rfl⟩, by decide, by decide⟩
theorem witness_TerminalRunStays :
    (at2 (regs 0 0 0 0)).halt.rs ≠ .ready ∧ (at2 (regs 0 0 0 0)).halt.ended = false := by decide
theorem witness_PcInBoundsWhileReady :
    ∃ t, step (running 0x0E0000000000000009 (regs 0 0 0 0)) = .next t ∧ t.rs = .ready := ⟨_, rfl, by decide⟩
theorem witness_CostCountersMonotonic : ∃ t, step (running 0x0A0000000000000003 (regs 0 0 0 0)) = .next t := ⟨_, rfl⟩
theorem witness_RunParametersFixed : ∃ t, step (running 0x0A0000000000000003 (regs 0 0 0 0)) = .next t := ⟨_, rfl⟩
theorem witness_StepKeepsInvariant :
    (running 0x030000000000000005 (regs 0 0 0 0)).Inv ∧ ∃ t, step (running 0x030000000000000005 (regs 0 0 0 0)) = .next t :=
  ⟨by decide, _, rfl⟩
theorem witness_ResetHasInvariant : ([] : List ProgEntry).length ≤ programMax := by decide

theorem witness_MaterializationUnobservable :
    sameReads (at2 (regs 0 0 0 0)) ((at2 (regs 0 0 0 0)).memWrite 5 0) ∧
      ∃ t, Host.Core.run core 1 (at2 (regs 0 0 0 0)) = .next t := by
  refine ⟨⟨rfl, fun a => ?_⟩, _, rfl⟩
  rw [memWrite_mem, Memory.read_write]
  split <;> rfl
theorem witness_HostStateUnobservable : ∃ t, exec .write (at2 (regs 1 0 0 0)) = .next t := ⟨_, rfl⟩
theorem witness_ResetCommandRule : (List.replicate 2 (ProgEntry.word 0)).length ≤ programMax := by decide
theorem witness_ResetKeepsParametersOpensSession :
    ∃ t, hostCommand (.reset [.word 0] .queue [3] (regs 1 2 3 4)) (at2 (regs 0 0 0 0)).endSession = .next t := ⟨_, rfl⟩
theorem witness_StepWhenOverIsRefused :
    (mocked (at2 (regs 0 0 0 0))).halt.ended = false ∧ (mocked (at2 (regs 0 0 0 0))).halt.rs ≠ .ready ∧
      (mocked (at2 (regs 0 0 0 0))).halt.par.inputMode = .mockZero ∧
      (at2 (regs 0 0 0 0)).halt.rs ≠ .ready ∧ (at2 (regs 0 0 0 0)).halt.par.inputMode = .queue := by decide
theorem witness_QuitEndsSession : (at2 (regs 0 0 0 0)).ended = false := by decide
theorem witness_UnknownCommandLogged :
    (mocked (at2 (regs 0 0 0 0))).ended = false ∧ (mocked (at2 (regs 0 0 0 0))).par.inputMode = .mockZero ∧
      (at2 (regs 0 0 0 0)).ended = false ∧ (at2 (regs 0 0 0 0)).par.inputMode = .queue := by decide

/-- With STEP_CEILING = 3 and `n` steps made. -/
def ceilingAt3 (n : Nat) : State :=
  { at2 (regs 0 0 0 0) with steps := n, par := { (at2 (regs 0 0 0 0)).par with stepCeiling := some 3 } }

theorem witness_StepCeilingStops :
    (ceilingAt3 3).ended = false ∧ (ceilingAt3 3).rs = .ready ∧ (ceilingAt3 3).par.stepCeiling = some 3 ∧ 3 ≤ (ceilingAt3 3).steps ∧
      (ceilingAt3 2).ceilingReached = false ∧ (ceilingAt3 2).steps < 3 := by decide
theorem witness_TrappedResultRule :
    (running 0x140000000000000000 (regs 0 0 0 0)).Inv ∧
      ∃ u, step (running 0x140000000000000000 (regs 0 0 0 0)) = .next u ∧ u.rs = .trapped := ⟨by decide, _, rfl, by decide⟩
/-- ADD r1 (5), WRITE (100) and HALT (0) along the path. -/
def addWriteHalt : State :=
  { at2 (regs 3 4 0 0) with
    prog := [.word 0, .word 0, .word 0x060000000000000001, .word 0x010000000000000000, .word 0x130000000000000000] }

theorem witness_HaltedCostIsPathSum :
    addWriteHalt.rs = .ready ∧ addWriteHalt.costFits ∧ pathCost 3 addWriteHalt = 105 ∧
      ∃ t, Host.Core.run core 3 addWriteHalt = .next t ∧ t.rs = .halted :=
  ⟨by decide, by decide, by decide, _, rfl, by decide⟩

/-- A program of one instruction. -/
def jobOf (w : IWord) : BatchJob := ⟨[.word w], [], regs 0 0 0 0⟩

/-- JUMP 0 at index 0, with the cost of JUMP at 0, so that no charge ever ends it (R244). -/
def freeJumps : Params := { Params.default .queue with cost := { CostTable.source with jump := 0 } }

/-- One step of JUMP 0 at no cost only counts itself. -/
theorem step_freeJump (draws k : Nat) :
    step { jobStart freeJumps draws (jobOf 0x0E0000000000000000) with steps := k } =
      .next { jobStart freeJumps draws (jobOf 0x0E0000000000000000) with steps := k + 1 } := rfl

/-- Any number of them too. -/
theorem run_freeJump (n : Nat) : ∀ draws k : Nat,
    Host.Core.run core n { jobStart freeJumps draws (jobOf 0x0E0000000000000000) with steps := k } =
      .next { jobStart freeJumps draws (jobOf 0x0E0000000000000000) with steps := k + n } := by
  induction n with
  | zero => intro draws k; rfl
  | succ n ih =>
    intro draws k
    rw [run_succ, step_freeJump]
    have h := ih draws (k + 1)
    rw [Nat.add_assoc, Nat.add_comm 1 n] at h
    exact h

theorem witness_BatchRunsIndependent :
    (at2 (regs 0 0 0 0)).par.readOffByOne = false ∧
      ∀ draws : Nat, endless freeJumps draws (jobOf 0x0E0000000000000000) :=
  ⟨by decide, fun draws n => ⟨_, run_freeJump n draws 0, rfl⟩⟩
theorem witness_HostCommandKeepsInvariant :
    (at2 (regs 0 0 0 0)).Inv ∧ ∃ t, hostCommand .quit (at2 (regs 0 0 0 0)) = .next t := ⟨by decide, _, rfl⟩

end Sys2Proof.Tests
end

section
/-! PROOFS. The statements about the primitives of 00_scope.md: the range check of a result (R8 to R10). -/

namespace Sys2Proof.Proofs

open Sys2Proof.Machine Sys2Proof.Statements

/-- Wrapping (R9) always lands within `Int64`. -/
theorem inInt64_wrap64 (v : Int) : inInt64 (wrap64 v) := by
  have hlo : 0 ≤ (v + 2 ^ 63) % 2 ^ 64 := Int.emod_nonneg _ (by decide)
  have hhi : (v + 2 ^ 63) % 2 ^ 64 < 2 ^ 64 := Int.emod_lt_of_pos _ (by decide)
  simp only [wrap64, inInt64, int64Min, int64Max]
  omega

/-- The word of a wrapped result has exactly the wrapped value. -/
theorem toInt_ofInt_wrap64 (v : Int) : (BitVec.ofInt 64 (wrap64 v)).toInt = wrap64 v :=
  toInt_ofInt_of_inInt64 _ (inInt64_wrap64 v)

/-- Settles O31: each case of `checked` meets its own clause and contradicts the premises of the other two. -/
theorem checkedRule : Obligations.CheckedRule := by
  intro mode v
  rcases checked_cases mode v with ⟨hin, heq⟩ | ⟨hout, rfl, heq⟩ | ⟨hout, rfl, heq⟩
  · exact ⟨fun _ => ⟨_, heq, toInt_ofInt_of_inInt64 v hin⟩, fun h => absurd hin h, fun h => absurd hin h⟩
  · exact ⟨fun h => absurd h hout, fun _ _ => heq, fun _ h => nomatch h⟩
  · exact ⟨fun h => absurd h hout, fun _ h => (nomatch h), fun _ _ => ⟨_, heq, toInt_ofInt_wrap64 v⟩⟩

end Sys2Proof.Proofs
end

section
/-! PROOFS. What a completed instruction and a step can do to each part of the state (10_state.md, 20_memory.md R42,
45_io.md R182), read off the list of effects once; the invariants of 10_state.md follow. -/

namespace Sys2Proof.Proofs

open Sys2Proof.Machine Sys2Proof.Statements

/-- An outcome answers one next state. -/
theorem next_unique {o : Host.Outcome State Fault Refusal} {t u : State} (ht : o = .next t) (hu : o = .next u) : t = u :=
  Host.Outcome.next.inj (ht.symm.trans hu)

/-! ### The parts of the state under one effect -/

/-- An effect leaves the run's parameters and the host's log, session and count of steps as they are (R36, R239). -/
theorem effect_frame {s t : State} (h : Effect s t) :
    t = { s with x := t.x, pc := t.pc, cost := t.cost, mem := t.mem, icur := t.icur, rs := t.rs, trap := t.trap,
                 out := t.out, draws := t.draws } := by
  cases h with
  | input c v _ _ => rw [takeInput_only]; rfl
  | _ => rfl

/-- An effect records no trap, and the run stays as it was or halts (R30, R31). -/
theorem effect_trap_rs {s t : State} (h : Effect s t) : t.trap = s.trap ∧ (t.rs = s.rs ∨ t.rs = .halted) := by
  cases h with
  | halt => exact ⟨rfl, .inr rfl⟩
  | _ => exact ⟨by simp, .inl (by simp)⟩

/-- An effect keeps memory in canonical form (R42). -/
theorem effect_mem_wf {s t : State} (h : Effect s t) (hm : s.mem.wf) : t.mem.wf := by
  cases h with
  | store c a v _ => simpa using Memory.write_wf s.mem a v hm
  | _ => simpa using hm

/-- An effect moves the cursor only where an input, or the extra one of the defect, is left (R182, R183). -/
theorem effect_cursorOk {s t : State} (h : Effect s t) (hk : s.cursorOk) : t.cursorOk := by
  cases h with
  | input c v _ hi =>
    cases hm : s.par.inputMode with
    | mockZero =>
      have hcur := takeInput_icur_mock ((s.addIo c).setReg 0 v) (by simpa using hm)
      simpa [State.cursorOk, hcur] using hk
    | queue =>
      have hcur := takeInput_icur_queue ((s.addIo c).setReg 0 v) (by simpa using hm)
      simpa [State.cursorOk, hcur] using hi hm
  | _ => exact hk

/-- The meter after an effect: as it was, or one counter grown by exactly a charge that fits (R26, R27). -/
theorem effect_cost {s t : State} (h : Effect s t) :
    t.cost = s.cost ∨ ∃ c, s.chargeFits c ∧ (chargedCompute s t c ∨ chargedIo s t c) := by
  have compute (c : Nat) (hc : s.chargeFits c) (ht : t.cost = (s.addCompute c).cost) :
      ∃ c, s.chargeFits c ∧ (chargedCompute s t c ∨ chargedIo s t c) :=
    ⟨c, hc, .inl (by simpa [chargedCompute, ht] using addCompute_toNat s c hc)⟩
  have io (c : Nat) (hc : s.chargeFits c) (ht : t.cost = (s.addIo c).cost) :
      ∃ c, s.chargeFits c ∧ (chargedCompute s t c ∨ chargedIo s t c) :=
    ⟨c, hc, .inr (by simpa [chargedIo, ht] using addIo_toNat s c hc)⟩
  cases h with
  | halt => exact .inl rfl
  | output c hc => exact .inr (io c hc (by simp))
  | input c v hc _ => exact .inr (io c hc (by simp))
  | register c _ _ hc | exchange c _ hc | store c _ _ hc | jump c _ hc | call c _ hc =>
    exact .inr (compute c hc (by simp))

/-- An effect keeps `compute + io` within a `U64` (R27). -/
theorem effect_costFits {s t : State} (h : Effect s t) (hf : s.costFits) : t.costFits := by
  simp only [State.costFits, CostMeter.total] at hf ⊢
  rcases effect_cost h with heq | ⟨c, hc, ⟨hgrow, hsame⟩ | ⟨hgrow, hsame⟩⟩
  · rwa [heq]
  all_goals
    simp only [State.chargeFits, CostMeter.total] at hc
    rw [hgrow, hsame]
    omega

/-! ### The cycle and the step -/

/-- A cycle traps with no other effect, or has one effect and the bound check after it (R200 to R203). -/
theorem cycle_effect {s u : State} (h : cycle s = .next u) :
    (∃ kind, u = raise kind s.pc s) ∨ ∃ v, Effect s v ∧ u = v.boundCheck := by
  rcases cycle_cases s with ⟨_, hc⟩ | ⟨_, _, _, _, hc⟩ | ⟨_, i, v, _, _, hv, hc⟩
  · exact .inl ⟨_, next_unique h hc⟩
  · exact .inl ⟨_, next_unique h hc⟩
  · have hu : u = v.boundCheck := next_unique h hc
    rcases exec_effect i s with ⟨kind, hx⟩ | ⟨w, hx, he⟩
    · obtain rfl : v = raise kind s.pc s := next_unique hv hx
      exact .inl ⟨kind, by simp [hu, boundCheck_eq]⟩
    · obtain rfl : v = w := next_unique hv hx
      exact .inr ⟨v, he, hu⟩

/-- The session's part of a step: the log grows and the step is counted, nothing else (R237, R243). -/
theorem logStep_countStep_eq (s u : State) :
    (State.logStep s u).countStep = { u with log := (State.logStep s u).log, steps := u.steps + 1 } := by
  rw [logStep_only_log]; rfl

/-- What a step can do: a logged trap, a logged effect with the bound check, or a logged refusal. Each time the state is
the core's next state `u` but for the log and the count of steps, and a log within its capacity stays so. -/
theorem step_effect {s t : State} (h : step s = .next t) :
    ∃ u : State, t = { u with log := t.log, steps := t.steps } ∧
      (u.log.length ≤ u.par.logCapacity → t.log.length ≤ u.par.logCapacity) ∧
      ((s.rs = .ready ∧ ∃ kind, u = raise kind s.pc s) ∨ (s.rs = .ready ∧ ∃ v, Effect s v ∧ u = v.boundCheck) ∨
        (s.rs ≠ .ready ∧ u = s)) := by
  rcases step_cases s t h with ⟨⟨_, hr, _⟩, u, hu, rfl⟩ | ⟨_, hr, rfl⟩
  · refine ⟨u, by rw [logStep_countStep_eq], pushLogs_length (stepEntries s u) u, ?_⟩
    rcases cycle_effect hu with htrap | heff
    · exact .inl ⟨hr, htrap⟩
    · exact .inr (.inl ⟨hr, heff⟩)
  · exact ⟨s, by rw [pushLog_eq], pushLogs_length [.refused] s, .inr (.inr ⟨hr, rfl⟩)⟩

/-! ### The invariant -/

/-- A trap from a Ready run keeps the invariant (R206). -/
theorem inv_raise {s : State} (kind : TrapKind) (p : Word) (h : s.Inv) : (raise kind p s).Inv := by
  obtain ⟨hmem, _, hcost, hcur, hlog, hprog⟩ := h
  exact ⟨hmem, by simp [State.trapConsistent], hcost, hcur, hlog, hprog⟩

/-- The bound check keeps the invariant (R203). -/
theorem inv_boundCheck {s : State} (h : s.Inv) : s.boundCheck.Inv := by
  rw [boundCheck_eq]
  split
  · exact inv_raise _ _ h
  · exact h

/-- An effect on a Ready run keeps the invariant. -/
theorem inv_effect {s t : State} (h : s.Inv) (hr : s.rs = .ready) (he : Effect s t) : t.Inv := by
  obtain ⟨hmem, htrap, hcost, hcur, hlog, hprog⟩ := h
  have hframe := effect_frame he
  have htrap' : t.trapConsistent := by
    obtain ⟨heq, hrs⟩ := effect_trap_rs he
    have hs : s.trap.isSome = false := by simpa [State.trapConsistent, hr] using htrap
    rcases hrs with hrs | hrs <;> simp [State.trapConsistent, heq, hrs, hr, hs]
  exact ⟨effect_mem_wf he hmem, htrap', effect_costFits he hcost, effect_cursorOk he hcur,
    by rw [hframe]; exact hlog, by rw [hframe]; exact hprog⟩

/-- Settles O47: the core's next state has the invariant whichever way the step went, and what the session adds touches
the log, which stays within its capacity, and the count of steps, of which the invariant does not speak. -/
theorem stepKeepsInvariant : Obligations.StepKeepsInvariant := by
  intro s t hs hstep
  obtain ⟨u, ht, hlog, hu⟩ := step_effect hstep
  have huInv : u.Inv := by
    rcases hu with ⟨_, kind, rfl⟩ | ⟨hr, v, hv, rfl⟩ | ⟨_, rfl⟩
    · exact inv_raise kind s.pc hs
    · exact inv_boundCheck (inv_effect hs hr hv)
    · exact hs
  obtain ⟨hmem, htrap, hcost, hcur, hcap, hprog⟩ := huInv
  rw [ht]
  exact ⟨hmem, htrap, hcost, hcur, hlog hcap, hprog⟩

/-- Settles O43: each step of a run that is over logs a refusal and leaves the core, so the induction goes on. -/
theorem terminalRunStays : Obligations.TerminalRunStays := by
  intro n
  induction n with
  | zero => exact fun s _ _ => ⟨s, rfl, rfl⟩
  | succ n ih =>
    intro s hr he
    obtain ⟨u, hrun, hcore⟩ := ih (s.pushLog .refused) (by simpa using hr) (by simpa using he)
    refine ⟨u, ?_, hcore.trans (core_pushLog _ s)⟩
    rw [run_succ, step_of_over s he hr]
    exact hrun

/-- Settles O44: a trapped or refused step is not Ready after, and the bound check answers for every other. -/
theorem pcInBoundsWhileReady : Obligations.PcInBoundsWhileReady := by
  intro s t hstep hready
  obtain ⟨u, ht, _, hu⟩ := step_effect hstep
  rw [ht] at hready ⊢
  rcases hu with ⟨_, kind, rfl⟩ | ⟨_, v, _, rfl⟩ | ⟨hr, rfl⟩
  · simp at hready
  · obtain ⟨heq, _, hbounds⟩ := boundCheck_ready v hready
    rw [heq]
    exact hbounds
  · exact absurd hready hr

/-- Settles O45: only an effect moves the meter, and it adds a charge to one counter. -/
theorem costCountersMonotonic : Obligations.CostCountersMonotonic := by
  intro s t hstep
  obtain ⟨u, ht, _, hu⟩ := step_effect hstep
  rw [ht]
  rcases hu with ⟨_, kind, rfl⟩ | ⟨_, v, hv, rfl⟩ | ⟨_, rfl⟩
  · exact ⟨le_rfl, le_rfl⟩
  · rw [boundCheck_cost]
    rcases effect_cost hv with heq | ⟨c, _, ⟨hgrow, hsame⟩ | ⟨hgrow, hsame⟩⟩
    · exact ⟨heq ▸ le_rfl, heq ▸ le_rfl⟩
    · exact ⟨by omega, by rw [hsame]⟩
    · exact ⟨by rw [hsame], by omega⟩
  · exact ⟨le_rfl, le_rfl⟩

/-- Settles O46: neither a trap nor an effect nor the log touches what is fixed for the run. -/
theorem runParametersFixed : Obligations.RunParametersFixed := by
  intro s t hstep
  obtain ⟨u, ht, _, hu⟩ := step_effect hstep
  rw [ht]
  rcases hu with ⟨_, kind, rfl⟩ | ⟨_, v, hv, rfl⟩ | ⟨_, rfl⟩
  · exact ⟨rfl, rfl, rfl⟩
  · simp only [boundCheck_prog, boundCheck_input, boundCheck_par]
    rw [effect_frame hv]
    exact ⟨rfl, rfl, rfl⟩
  · exact ⟨rfl, rfl, rfl⟩

/-! ### Charges and reset -/

/-- Settles O32: `chargeFits` is the premise of the first clause, and its negation that of the second (R27). -/
theorem chargeRule : Obligations.ChargeRule := by
  intro s c
  have hfits : s.chargeFits c ↔ s.cost.compute.toNat + s.cost.io.toNat + c ≤ 2 ^ 64 - 1 := Iff.rfl
  constructor
  · intro h
    have hc := hfits.2 h
    exact ⟨⟨_, chargeCompute_fits s c hc, ⟨addCompute_toNat s c hc, rfl⟩, rfl⟩,
      ⟨_, chargeIo_fits s c hc, ⟨addIo_toNat s c hc, rfl⟩, rfl⟩⟩
  · intro h
    have hc : ¬ s.chargeFits c := fun hc => absurd (hfits.1 hc) (by omega)
    exact ⟨chargeCompute_full s c hc, chargeIo_full s c hc⟩

/-- The reset command is taken exactly for a program within R7's bound, and then answers the reset state under the
parameters it found, with the input mode it was given. -/
theorem hostReset_eq_next (prog : List ProgEntry) (mode : InputMode) (input : List Word) (init : Vector Word 8)
    (s t : State) :
    hostCommand (.reset prog mode input init) s = .next t ↔
      prog.length ≤ programMax ∧
        t = { State.resetWith prog input init { s.par with inputMode := mode } with draws := s.draws } := by
  by_cases h : prog.length ≤ programMax <;> simp [hostCommand, hostReset, programLengthOk, h, eq_comm]

/-- Settles O51: the answered state is `State.resetWith`, whose elements are R35's reset values. -/
theorem resetCommandRule : Obligations.ResetCommandRule := by
  intro s prog mode input init hlen
  refine ⟨_, (hostReset_eq_next prog mode input init s _).2 ⟨hlen, rfl⟩, ?_⟩
  exact ⟨fun _ => rfl, rfl, rfl, fun _ => ⟨rfl, rfl⟩, rfl, rfl, rfl, rfl, rfl, rfl⟩

/-- Settles O52: the same answered state, read at the elements that R35 does not name. -/
theorem resetKeepsParametersOpensSession : Obligations.ResetKeepsParametersOpensSession := by
  intro s t prog mode input init h
  obtain ⟨_, rfl⟩ := (hostReset_eq_next prog mode input init s t).1 h
  exact ⟨rfl, rfl, rfl, rfl, rfl⟩

end Sys2Proof.Proofs
end

section
/-! PROOFS. Noninterference of one instruction (R22, R29). Two runs of an instruction are compared once, for every
relation between states that its operations respect; the statements choose the relation. -/

namespace Sys2Proof.Proofs

open Sys2Proof.Machine Sys2Proof.Statements

/-! ### Relations that the state's operations respect -/

/-- The relation fixes what every instruction may observe beside the registers, and each of the state's operations takes
related states to related states. -/
structure Congruence (R : State → State → Prop) : Prop where
  pc : ∀ {s s'}, R s s' → s'.pc = s.pc
  cost : ∀ {s s'}, R s s' → s'.cost = s.cost
  par : ∀ {s s'}, R s s' → s'.par = s.par
  inRead : ∀ {s s'}, R s s' → s'.inRead = s.inRead
  memRead : ∀ {s s'}, R s s' → ∀ a, s'.mem.read a = s.mem.read a
  raise : ∀ {s s'}, R s s' → ∀ kind p, R (raise kind p s) (raise kind p s')
  halt : ∀ {s s'}, R s s' → R s.halt s'.halt
  addCompute : ∀ {s s'}, R s s' → ∀ c, R (s.addCompute c) (s'.addCompute c)
  addIo : ∀ {s s'}, R s s' → ∀ c, R (s.addIo c) (s'.addIo c)
  setReg : ∀ {s s'}, R s s' → ∀ k v, R (s.setReg k v) (s'.setReg k v)
  setPc : ∀ {s s'}, R s s' → ∀ p, R (s.setPc p) (s'.setPc p)
  memWrite : ∀ {s s'}, R s s' → ∀ a v, R (s.memWrite a v) (s'.memWrite a v)
  outWrite : ∀ {s s'}, R s s' → ∀ v, R (s.outWrite v) (s'.outWrite v)
  takeInput : ∀ {s s'}, R s s' → R s.takeInput s'.takeInput

theorem Congruence.advance {R : State → State → Prop} (hR : Congruence R) {s s' : State} (h : R s s') :
    R s.advance s'.advance := by
  unfold State.advance
  rw [hR.pc h]
  exact hR.setPc h _

/-- Equality is such a relation: one run compared with itself. -/
theorem congruence_eq : Congruence (fun s s' : State => s' = s) := by
  constructor <;> rintro s _ rfl <;> intros <;> rfl

/-- An operation writes exactly the registers of `W`, with values that no state decides; it keeps every other. -/
def writesExactly (W : Reg → Prop) (f : State → State) : Prop :=
  ∀ (s s' : State) (k : Reg), (W k → (f s').reg k = (f s).reg k) ∧ (¬ W k → (f s).reg k = s.reg k)

theorem writesExactly_none (f : State → State) (h : ∀ s k, (f s).reg k = s.reg k) :
    writesExactly (fun _ => False) f :=
  fun s _ k => ⟨False.elim, fun _ => h s k⟩

theorem writesExactly_one (k : Reg) (v : Word) (f : State → State) (h : ∀ s j, (f s).reg j = s.reg j) :
    writesExactly (fun j => j = k) (fun s => f (s.setReg k v)) :=
  fun s s' j => ⟨fun hj => by simp [h, hj], fun hj => by simp [h, hj]⟩

/-- Two outcomes of one instruction run from `s` and from a state related to it: related next states, the same values in
the written registers where the run goes on, and the first run's other registers as they were. -/
def alike (R : State → State → Prop) (W : Reg → Prop) (s : State) (o o' : Host.Outcome State Fault Refusal) : Prop :=
  ∃ t t', o = .next t ∧ o' = .next t' ∧ R t t' ∧ (t.rs = .ready → ∀ k, W k → t'.reg k = t.reg k) ∧
    ∀ k, ¬ W k → t.reg k = s.reg k

section
variable {R : State → State → Prop} (hR : Congruence R) {W : Reg → Prop} {s s' : State}
include hR

/-- A trap at the instruction's own index is alike in both runs. -/
theorem alike_raise (h : R s s') (kind : TrapKind) : alike R W s (commit s (.error kind)) (commit s' (.error kind)) := by
  refine ⟨_, _, rfl, rfl, ?_, fun hr => absurd hr (by simp), fun _ _ => rfl⟩
  rw [hR.pc h]
  exact hR.raise h kind _

/-- Whether a charge fits is the same in both runs. -/
theorem chargeFits_iff (h : R s s') (c : Nat) : s'.chargeFits c ↔ s.chargeFits c := by
  rw [State.chargeFits, hR.cost h]

/-- The form "charge, then write" in both runs, for either charge: each is a test of the meter and an addition to it. -/
theorem alike_charged (h : R s s') {c : Nat} {charge : State → Except TrapKind State} {add f : State → State}
    (hcharge : ∀ a, charge a = if a.chargeFits c then .ok (add a) else .error .costOverflow)
    (hadd : R (add s) (add s')) (hkeep : ∀ k, (add s).reg k = s.reg k)
    (hf : ∀ {a b}, R a b → R (f a) (f b)) (hw : writesExactly W f) :
    alike R W s (commit s (charge s >>= fun s1 => pure (f s1))) (commit s' (charge s' >>= fun s1 => pure (f s1))) := by
  simp only [hcharge, chargeFits_iff hR h]
  split
  · exact ⟨_, _, rfl, rfl, hf hadd, fun _ k => (hw _ _ k).1, fun k hk => ((hw _ s k).2 hk).trans (hkeep k)⟩
  · exact alike_raise hR h _

/-- The form "charge compute, then write" in both runs. -/
theorem alike_compute (h : R s s') (c : Nat) {f : State → State} (hf : ∀ {a b}, R a b → R (f a) (f b))
    (hw : writesExactly W f) :
    alike R W s (commit s (s.chargeCompute c >>= fun s1 => pure (f s1)))
      (commit s' (s'.chargeCompute c >>= fun s1 => pure (f s1))) :=
  alike_charged hR h (charge := (·.chargeCompute c)) (fun _ => rfl) (hR.addCompute h c) (fun _ => rfl) hf hw

/-- The form "charge io, then write" in both runs. -/
theorem alike_io (h : R s s') (c : Nat) {f : State → State} (hf : ∀ {a b}, R a b → R (f a) (f b))
    (hw : writesExactly W f) :
    alike R W s (commit s (s.chargeIo c >>= fun s1 => pure (f s1)))
      (commit s' (s'.chargeIo c >>= fun s1 => pure (f s1))) :=
  alike_charged hR h (charge := (·.chargeIo c)) (fun _ => rfl) (hR.addIo h c) (fun _ => rfl) hf hw

/-- The form "charge compute, write one register, go on to the next index". -/
theorem alike_register (h : R s s') (c : Nat) (k : Reg) (v : Word) :
    alike R (fun j => j = k) s (commit s (s.chargeCompute c >>= fun s1 => pure (s1.setReg k v).advance))
      (commit s' (s'.chargeCompute c >>= fun s1 => pure (s1.setReg k v).advance)) :=
  alike_compute hR h c (fun hab => hR.advance (hR.setReg hab k v)) (writesExactly_one k v State.advance fun _ _ => rfl)

/-- The form "check a result, charge compute, write it to one register, go on to the next index". -/
theorem alike_checked (h : R s s') (r : Except TrapKind Word) (c : Nat) (k : Reg) :
    alike R (fun j => j = k) s (commit s (r >>= fun v => s.chargeCompute c >>= fun s1 => pure (s1.setReg k v).advance))
      (commit s' (r >>= fun v => s'.chargeCompute c >>= fun s1 => pure (s1.setReg k v).advance)) := by
  cases r with
  | error kind => exact alike_raise hR h kind
  | ok v => exact alike_register hR h c k v

/-- The form "charge compute, then store one word and go on", which writes no register. -/
theorem alike_store (h : R s s') (c : Nat) (a v : Word) :
    alike R (fun _ => False) s (commit s (s.chargeCompute c >>= fun s1 => pure (s1.memWrite a v).advance))
      (commit s' (s'.chargeCompute c >>= fun s1 => pure (s1.memWrite a v).advance)) :=
  alike_compute hR h c (fun hab => hR.advance (hR.memWrite hab a v)) (writesExactly_none _ fun _ _ => rfl)

/-- The form "charge compute, then jump where a condition holds", which writes no register. -/
theorem alike_branch (h : R s s') (c : Nat) (cond : Bool) (p : Word) :
    alike R (fun _ => False) s (commit s (s.chargeCompute c >>= fun s1 => pure (branchTo cond p s1)))
      (commit s' (s'.chargeCompute c >>= fun s1 => pure (branchTo cond p s1))) := by
  cases cond with
  | true => exact alike_compute hR h c (fun hab => hR.setPc hab p) (writesExactly_none _ fun _ _ => rfl)
  | false => exact alike_compute hR h c hR.advance (writesExactly_none _ fun _ _ => rfl)

/-- Two runs of one instruction from related states that agree on the registers the table of R22 lists as read: what the
instruction computes is the same in both, and the rest are operations the relation respects. -/
theorem exec_alike (i : Instr) (h : R s s') (hread : ∀ k, mayRead i k → s'.reg k = s.reg k) :
    alike R (mayWrite i) s (exec i s) (exec i s') := by
  have hpar := hR.par h
  cases i with
  | read =>
    simp only [exec, execRead, hR.inRead h, hpar]
    cases s.inRead with
    | error kind => exact alike_raise hR h kind
    | ok v =>
      exact alike_io hR h _ (fun hab => hR.advance (hR.takeInput (hR.setReg hab r0 v)))
        (writesExactly_one r0 v (fun a => a.takeInput.advance) fun a j => reg_takeInput a j)
  | write =>
    simp only [exec, execWrite, hpar, hread r0 rfl]
    exact alike_io hR h _ (fun hab => hR.advance (hR.outWrite hab _)) (writesExactly_none _ fun _ _ => rfl)
  | load a =>
    simp only [exec, execLoad, hpar, directAddress_eq, hR.memRead h]
    exact alike_register hR h _ r0 _
  | store a =>
    simp only [exec, execStore, hpar, directAddress_eq, hread r0 rfl]
    exact alike_store hR h _ a _
  | rload k =>
    simp only [exec, execRload, hpar, indirectAddress_eq, hread k rfl, hR.memRead h]
    exact alike_register hR h _ r0 _
  | rstore k =>
    simp only [exec, execRstore, hpar, indirectAddress_eq, hread r0 (.inl rfl), hread k (.inr rfl)]
    exact alike_store hR h _ _ _
  | add k =>
    simp only [exec, execAdd, hpar, hread r0 (.inl rfl), hread k (.inr rfl)]
    exact alike_checked hR h _ _ r0
  | sub k =>
    simp only [exec, execSub, hpar, hread r0 (.inl rfl), hread k (.inr rfl)]
    exact alike_checked hR h _ _ r0
  | swp k =>
    simp only [exec, execSwp, hpar, hread r0 (.inl rfl), hread k (.inr rfl)]
    refine alike_compute hR h _ (fun hab => hR.advance (hR.setReg (hR.setReg hab r0 _) k _)) fun a b j => ?_
    simp only [mayWrite, reg_advance, reg_setReg, r0_eq]
    by_cases hk : j = k
    · simp [hk]
    · simp +contextual [hk]
  | rst k =>
    simp only [exec, execRst, hpar]
    exact alike_register hR h _ k 0
  | inc k =>
    simp only [exec, execInc, hpar, hread k rfl]
    exact alike_checked hR h _ _ k
  | dec k =>
    simp only [exec, execDec, hpar, hread k rfl]
    exact alike_register hR h _ k _
  | shl k =>
    simp only [exec, execShl, hpar, hread k rfl]
    exact alike_checked hR h _ _ k
  | shr k =>
    simp only [exec, execShr, hpar, hread k rfl]
    exact alike_register hR h _ k _
  | jump p =>
    simp only [exec, execJump, hpar]
    exact alike_branch hR h _ true p
  | jpos p =>
    simp only [exec, execJpos, hpar, hread r0 rfl]
    exact alike_branch hR h _ _ p
  | jzero p =>
    simp only [exec, execJzero, hpar, hread r0 rfl]
    exact alike_branch hR h _ _ p
  | call p =>
    simp only [exec, execCall, hpar, returnAddress_eq, hR.pc h]
    exact alike_compute hR h _ (fun hab => hR.setPc (hR.setReg hab r0 _) p)
      (writesExactly_one r0 _ (fun a => a.setPc p) fun _ _ => rfl)
  | rtrn =>
    simp only [exec, execRtrn, hpar, hread r0 rfl]
    exact alike_branch hR h _ true _
  | halt => exact ⟨_, _, rfl, rfl, hR.halt h, fun _ _ => False.elim, fun _ _ => rfl⟩

end

/-! ### Registers (R22) -/

/-- The third column of R22: an instruction keeps every register the table does not list as written. -/
theorem exec_keeps_unwritten {i : Instr} {s t : State} (h : exec i s = .next t) (j : Reg) (hj : ¬ mayWrite i j) :
    t.reg j = s.reg j := by
  obtain ⟨u, _, hu, _, _, _, hkeep⟩ := exec_alike congruence_eq i (rfl : s = s) fun _ _ => rfl
  obtain rfl : t = u := next_unique h hu
  exact hkeep j hj

/-- An instruction, trapping or not, leaves all that no instruction writes (R36, R239). -/
theorem exec_frame {i : Instr} {s t : State} (h : exec i s = .next t) :
    t = { s with x := t.x, pc := t.pc, cost := t.cost, mem := t.mem, icur := t.icur, rs := t.rs, trap := t.trap,
                 out := t.out, draws := t.draws } := by
  rcases exec_effect i s with ⟨kind, hx⟩ | ⟨u, hx, he⟩
  · obtain rfl : t = raise kind s.pc s := next_unique h hx
    rfl
  · obtain rfl : t = u := next_unique h hx
    exact effect_frame he

/-- The states differ at most in the value of register `j`. -/
def sameButReg (j : Reg) (s s' : State) : Prop :=
  ∃ y : Vector Word 8, s' = { s with x := y } ∧ ∀ k, k ≠ j → s'.reg k = s.reg k

theorem congruence_sameButReg (j : Reg) : Congruence (sameButReg j) where
  pc := by rintro s _ ⟨y, rfl, _⟩; rfl
  cost := by rintro s _ ⟨y, rfl, _⟩; rfl
  par := by rintro s _ ⟨y, rfl, _⟩; rfl
  inRead := by rintro s _ ⟨y, rfl, _⟩; rfl
  memRead := by rintro s _ ⟨y, rfl, _⟩ _; rfl
  raise := by rintro s _ ⟨y, rfl, hy⟩ _ _; exact ⟨y, rfl, hy⟩
  halt := by rintro s _ ⟨y, rfl, hy⟩; exact ⟨y, rfl, hy⟩
  addCompute := by rintro s _ ⟨y, rfl, hy⟩ _; exact ⟨y, rfl, hy⟩
  addIo := by rintro s _ ⟨y, rfl, hy⟩ _; exact ⟨y, rfl, hy⟩
  setReg := by
    rintro s _ ⟨y, rfl, hy⟩ k v
    exact ⟨_, rfl, fun m hm => by rw [reg_setReg, reg_setReg, hy m hm]⟩
  setPc := by rintro s _ ⟨y, rfl, hy⟩ _; exact ⟨y, rfl, hy⟩
  memWrite := by rintro s _ ⟨y, rfl, hy⟩ _ _; exact ⟨y, rfl, hy⟩
  outWrite := by rintro s _ ⟨y, rfl, hy⟩ _; exact ⟨y, rfl, hy⟩
  takeInput := by
    rintro s _ ⟨y, rfl, hy⟩
    refine ⟨y, ?_, fun m hm => by simpa using hy m hm⟩
    unfold State.takeInput
    cases s.par.inputMode <;> rfl

/-- Settles O41: the written column by `exec_keeps_unwritten`, the frame by `exec_frame`, and the read column by running
the instruction from two states that differ only in a register it does not read. -/
theorem registerUseTable : Obligations.RegisterUseTable := by
  intro i s t j h
  refine ⟨exec_keeps_unwritten h j, exec_frame h, fun hj v => ?_⟩
  have hrel : sameButReg j s (s.setReg j v) := ⟨_, rfl, fun k hk => reg_setReg_of_ne s j k v hk⟩
  have hread : ∀ k, mayRead i k → (s.setReg j v).reg k = s.reg k :=
    fun k hk => reg_setReg_of_ne s j k v fun hkj => hj (hkj ▸ hk)
  obtain ⟨u, t', hu, ht', ⟨y, hy, hregs⟩, hwritten, _⟩ := exec_alike (congruence_sameButReg j) i hrel hread
  obtain rfl : t = u := next_unique h hu
  exact ⟨t', ht', by rw [hy], hregs, fun hready hw => hwritten hready j hw⟩

/-! ### The host's part of the state (R29, R185, R239) -/

/-- The states differ at most in log, session, count of steps and output, and since their outputs were `out` and `out'`
both have emitted the same values. -/
def sameButHost (out out' : List Word) (s s' : State) : Prop :=
  ∃ (log : List LogEntry) (ended : Bool) (steps : Nat) (emitted : List Word), s.out = out ++ emitted ∧
    s' = { s with log := log, out := out' ++ emitted, ended := ended, steps := steps }

theorem congruence_sameButHost (out out' : List Word) : Congruence (sameButHost out out') where
  pc := by rintro s _ ⟨_, _, _, _, _, rfl⟩; rfl
  cost := by rintro s _ ⟨_, _, _, _, _, rfl⟩; rfl
  par := by rintro s _ ⟨_, _, _, _, _, rfl⟩; rfl
  inRead := by rintro s _ ⟨_, _, _, _, _, rfl⟩; rfl
  memRead := by rintro s _ ⟨_, _, _, _, _, rfl⟩ _; rfl
  raise := by rintro s _ ⟨l, b, n, e, ho, rfl⟩ _ _; exact ⟨l, b, n, e, ho, rfl⟩
  halt := by rintro s _ ⟨l, b, n, e, ho, rfl⟩; exact ⟨l, b, n, e, ho, rfl⟩
  addCompute := by rintro s _ ⟨l, b, n, e, ho, rfl⟩ _; exact ⟨l, b, n, e, ho, rfl⟩
  addIo := by rintro s _ ⟨l, b, n, e, ho, rfl⟩ _; exact ⟨l, b, n, e, ho, rfl⟩
  setReg := by rintro s _ ⟨l, b, n, e, ho, rfl⟩ _ _; exact ⟨l, b, n, e, ho, rfl⟩
  setPc := by rintro s _ ⟨l, b, n, e, ho, rfl⟩ _; exact ⟨l, b, n, e, ho, rfl⟩
  memWrite := by rintro s _ ⟨l, b, n, e, ho, rfl⟩ _ _; exact ⟨l, b, n, e, ho, rfl⟩
  outWrite := by
    rintro s _ ⟨l, b, n, e, ho, rfl⟩ v
    exact ⟨l, b, n, e ++ [v], by simp [ho], by simp [State.outWrite]⟩
  takeInput := by
    rintro s _ ⟨l, b, n, e, ho, rfl⟩
    refine ⟨l, b, n, e, by simpa using ho, ?_⟩
    unfold State.takeInput
    cases s.par.inputMode <;> rfl

/-- Settles O50: two runs from states that differ only in the host's part and have emitted nothing since. -/
theorem hostStateUnobservable : Obligations.HostStateUnobservable := by
  intro i s t log out ended steps h
  have hrel : sameButHost s.out out s { s with log := log, out := out, ended := ended, steps := steps } :=
    ⟨log, ended, steps, [], by simp, by simp⟩
  obtain ⟨u, t', hu, ht', ⟨_, _, _, emitted, hout, rfl⟩, _⟩ :=
    exec_alike (congruence_sameButHost s.out out) i hrel fun _ _ => rfl
  obtain rfl : t = u := next_unique h hu
  exact ⟨_, ht', rfl, emitted, hout, rfl⟩

end Sys2Proof.Proofs
end

section
/-! PROOFS. Data memory (20_memory.md): what a sequence of writes leaves (R41, R42, R51), that the canonical form makes
equal memories equal data (R40, R43), and which instructions change memory (R44). -/

namespace Sys2Proof.Proofs

open Sys2Proof.Machine Sys2Proof.Statements

/-! ### Reads after writes -/

/-- Settles O33: by induction from the last write back, which either is to the address read or leaves it alone. -/
theorem readGivesLastWrite : Obligations.ReadGivesLastWrite := by
  intro writes m a
  induction writes using List.reverseRecOn with
  | nil => rfl
  | append_singleton earlier w ih =>
    rw [List.foldl_append, List.foldl_cons, List.foldl_nil, Memory.read_write, List.reverse_concat, List.find?_cons]
    by_cases h : w.1 = a
    · simp [h]
    · have hbeq : (w.1 == a) = false := by simpa using h
      rw [if_neg (Ne.symm h), hbeq]
      exact ih

/-! ### The canonical form -/

/-- What an address reads, and whether it is materialized, say together which entry it has. -/
theorem lookup_eq_of_reads {m n : Memory} {a : Word}
    (h : m.materialized a = n.materialized a ∧ m.read a = n.read a) : m.lookup a.toNat = n.lookup a.toNat := by
  obtain ⟨hmat, hread⟩ := h
  simp only [Memory.materialized, Memory.read] at hmat hread
  cases hm : m.lookup a.toNat with
  | none => exact .symm (by simpa [hm] using hmat.symm)
  | some v =>
    obtain ⟨w, hn⟩ : ∃ w, n.lookup a.toNat = some w := Option.isSome_iff_exists.1 (by simp [← hmat, hm])
    simpa [hm, hn] using hread

/-- An entry found at an address stands in the list. -/
theorem mem_of_lookup {m : Memory} {k : Nat} {v : Word} (h : m.lookup k = some v) : (k, v) ∈ m := by
  induction m with
  | nil => simp [Memory.lookup] at h
  | cons c rest ih =>
    obtain ⟨j, w⟩ := c
    rw [Memory.lookup] at h
    split at h
    · next hk =>
      obtain rfl := Option.some.inj h
      exact hk ▸ List.mem_cons_self
    · exact List.mem_cons_of_mem _ (ih h)

/-- Where the addresses rise, the entry found at an address is the one that stands in the list. -/
theorem lookup_of_mem {m : Memory} (hm : (m.map Prod.fst).Pairwise (· < ·)) {k : Nat} {v : Word} (h : (k, v) ∈ m) :
    m.lookup k = some v := by
  induction m with
  | nil => simp at h
  | cons c rest ih =>
    obtain ⟨j, w⟩ := c
    rw [List.map_cons, List.pairwise_cons] at hm
    obtain ⟨hlt, hrest⟩ := hm
    rcases List.mem_cons.1 h with heq | hin
    · obtain ⟨rfl, rfl⟩ := Prod.mk.inj heq
      exact if_pos rfl
    · have hj : j < k := hlt k (List.mem_map_of_mem (f := Prod.fst) hin)
      rw [Memory.lookup, if_neg hj.ne']
      exact ih hrest hin

/-- A memory in canonical form has every entry of one that reads and is materialized alike. -/
theorem mem_of_same_entries {m n : Memory} (hm : m.wf)
    (h : ∀ a : Word, m.materialized a = n.materialized a ∧ m.read a = n.read a) {c : Nat × Word} (hc : c ∈ m) :
    c ∈ n := by
  obtain ⟨k, v⟩ := c
  obtain ⟨hrise, hbound⟩ := hm
  have hk : (BitVec.ofNat 64 k).toNat = k := Nat.mod_eq_of_lt (hbound _ hc)
  have hlook := lookup_eq_of_reads (h (BitVec.ofNat 64 k))
  rw [hk, lookup_of_mem hrise hc] at hlook
  exact mem_of_lookup hlook.symm

/-- Settles O34: two lists with the same entries, both in the order of their addresses, are the same list. -/
theorem memoryExtensional : Obligations.MemoryExtensional := by
  intro m n hm hn h
  have hsame : ∀ c, c ∈ m ↔ c ∈ n :=
    fun c => ⟨mem_of_same_entries hm h, mem_of_same_entries hn fun a => ⟨(h a).1.symm, (h a).2.symm⟩⟩
  have hirrefl : Std.Irrefl fun c d : Nat × Word => c.1 < d.1 := ⟨fun c => lt_irrefl c.1⟩
  have hantisymm : Std.Antisymm fun c d : Nat × Word => c.1 < d.1 := ⟨fun _ _ h h' => absurd h h'.asymm⟩
  exact (List.pairwise_map.1 hm.1).eq_of_mem_iff (List.pairwise_map.1 hn.1) hsame

/-! ### Which instructions change memory -/

/-- What an instruction computes, where its checks let it complete, has the memory of the state it started in. -/
def keepsMem (s : State) (r : Except TrapKind State) : Prop :=
  ∀ t, r = .ok t → t.mem = s.mem

/-- An instruction that computes such a result keeps memory, completed or trapped (R206). -/
theorem mem_of_commit {s t : State} {r : Except TrapKind State} (h : commit s r = .next t) (hr : keepsMem s r) :
    t.mem = s.mem := by
  rcases commit_cases s r with ⟨u, hok, hu⟩ | ⟨kind, _, hu⟩
  · exact next_unique h hu ▸ hr u hok
  · exact next_unique h hu ▸ raise_mem s kind s.pc

/-- A check before the rest of an instruction does not touch memory. -/
theorem keepsMem_check {α : Type} {s : State} {check : Except TrapKind α} {rest : α → Except TrapKind State}
    (h : ∀ v, keepsMem s (rest v)) : keepsMem s (check >>= rest) := by
  cases check with
  | error kind => exact fun t ht => nomatch ht
  | ok v => exact h v

/-- A result that is a trap, or else one state with the memory of the start, keeps memory. -/
theorem keepsMem_of_cases {s u : State} {r : Except TrapKind State} {kind : TrapKind} {full fits : Prop}
    (hr : r = .error kind ∧ full ∨ r = .ok u ∧ fits) (hu : u.mem = s.mem) : keepsMem s r := by
  intro t ht
  rcases hr with ⟨hfail, _⟩ | ⟨hok, _⟩
  · cases ht.symm.trans hfail
  · exact Except.ok.inj (ht.symm.trans hok) ▸ hu

/-- The form "charge compute, then write" keeps memory where the write does. -/
theorem keepsMem_compute {s : State} {c : Nat} {f : State → State} (hf : ∀ u, (f u).mem = u.mem) :
    keepsMem s (s.chargeCompute c >>= fun s1 => pure (f s1)) :=
  keepsMem_of_cases (exec_charged s c f) (hf _)

/-- The form "charge io, then write" keeps memory where the write does. -/
theorem keepsMem_io {s : State} {c : Nat} {f : State → State} (hf : ∀ u, (f u).mem = u.mem) :
    keepsMem s (s.chargeIo c >>= fun s1 => pure (f s1)) :=
  keepsMem_of_cases (exec_chargedIo s c f) (hf _)

/-- A conditional jump keeps memory. -/
theorem branchTo_mem (cond : Bool) (p : Word) (s : State) : (branchTo cond p s).mem = s.mem := by
  cases cond <;> rfl

/-- An instruction that stores nothing keeps memory (R44). -/
theorem exec_mem_of_no_store {i : Instr} {s t : State} (hnone : storeAddress i s = none) (h : exec i s = .next t) :
    t.mem = s.mem := by
  cases i with
  | store a | rstore k => cases hnone
  | read => exact mem_of_commit h (keepsMem_check fun _ => keepsMem_io fun _ => by simp)
  | write => exact mem_of_commit h (keepsMem_io fun _ => rfl)
  | add k | sub k | inc k | shl k => exact mem_of_commit h (keepsMem_check fun _ => keepsMem_compute fun _ => rfl)
  | jpos p | jzero p => exact mem_of_commit h (keepsMem_compute fun _ => branchTo_mem _ _ _)
  | load a | rload k | swp k | rst k | dec k | shr k | jump p | call p | rtrn =>
    exact mem_of_commit h (keepsMem_compute fun _ => rfl)
  | halt => exact next_unique h rfl ▸ halt_mem s

/-- The form "charge compute, then store one word" traps with memory as it was, or writes the word. -/
theorem mem_of_commit_store {s t : State} {c : Nat} {a v : Word}
    (h : commit s (s.chargeCompute c >>= fun s1 => pure (s1.memWrite a v).advance) = .next t) :
    t.mem = s.mem ∨ t.mem = s.mem.write a v := by
  rcases commit_charged s c (fun s1 => (s1.memWrite a v).advance) with ⟨htrap, _⟩ | ⟨hok, _⟩
  · exact .inl (next_unique h htrap ▸ rfl)
  · exact .inr (next_unique h hok ▸ rfl)

/-- An instruction that stores writes `x[0]` at its effective address, or traps with memory as it was (R42, R206). -/
theorem exec_mem_of_store {i : Instr} {s t : State} {a : Word} (hstore : storeAddress i s = some a)
    (h : exec i s = .next t) : t.mem = s.mem ∨ t.mem = s.mem.write a (s.reg r0) := by
  cases i with
  | store b =>
    obtain rfl : b = a := Option.some.inj hstore
    exact mem_of_commit_store h
  | rstore k =>
    obtain rfl : s.reg k = a := Option.some.inj hstore
    exact mem_of_commit_store h
  | _ => cases hstore

/-- Settles O42: a form without a store address keeps memory; the others at most write their one word, and a write
leaves every other address alone. -/
theorem onlyStoresChangeMemory : Obligations.OnlyStoresChangeMemory := by
  intro i s t h
  refine ⟨fun hnone => exec_mem_of_no_store hnone h, fun a b hstore hb => ?_⟩
  rcases exec_mem_of_store hstore h with hmem | hmem
  · simp [hmem]
  · simp [hmem, Memory.read_write, Memory.materialized_write, hb]

end Sys2Proof.Proofs
end

section
/-! PROOFS. Noninterference of materialization (R43). Every operation but a store is blind to memory, a store keeps two
memories that read the same reading the same, and `exec_alike` compares the runs of an instruction. -/

namespace Sys2Proof.Proofs

open Sys2Proof.Machine Sys2Proof.Statements

/-- The operation neither looks at data memory nor changes it. -/
def blindToMemory (f : State → State) : Prop :=
  ∀ (s : State) (m : Memory), f { s with mem := m } = { f s with mem := m }

/-- `sameReads` as a second memory put in the first state's place. -/
theorem sameReads_iff (s s' : State) :
    sameReads s s' ↔ ∃ m : Memory, s' = { s with mem := m } ∧ ∀ a, m.read a = s.mem.read a := by
  constructor
  · exact fun ⟨heq, hread⟩ => ⟨s'.mem, heq, hread⟩
  · rintro ⟨m, rfl, hread⟩
    exact ⟨rfl, hread⟩

/-- An operation blind to memory keeps two states alike. -/
theorem blindToMemory.sameReads {f : State → State} (hf : blindToMemory f) {s s' : State} (h : sameReads s s') :
    sameReads (f s) (f s') := by
  obtain ⟨m, rfl, hread⟩ := (sameReads_iff s s').1 h
  have hmem : (f s).mem = s.mem := (congrArg State.mem (hf s s.mem) :)
  exact (sameReads_iff _ _).2 ⟨m, hf s m, fun a => by rw [hmem, hread a]⟩

theorem blindToMemory_takeInput : blindToMemory State.takeInput := by
  intro s m
  unfold State.takeInput
  cases s.par.inputMode <;> rfl

theorem blindToMemory_boundCheck : blindToMemory State.boundCheck := by
  intro s m
  simp only [boundCheck_eq, State.inBounds]
  split <;> rfl

theorem blindToMemory_pushLog (e : LogEntry) : blindToMemory (State.pushLog e) := by
  intro s m
  simp only [pushLog_eq]
  rfl

theorem blindToMemory_pushLogs (es : List LogEntry) : blindToMemory (State.pushLogs es) := by
  induction es with
  | nil => exact fun _ _ => rfl
  | cons e es ih =>
    intro s m
    calc State.pushLogs (e :: es) { s with mem := m } = State.pushLogs es (State.pushLog e { s with mem := m }) := rfl
      _ = State.pushLogs es { State.pushLog e s with mem := m } := by rw [blindToMemory_pushLog]
      _ = { State.pushLogs (e :: es) s with mem := m } := ih _ m

/-- The same word stored in both memories: they still read the same (R42). -/
theorem sameReads_memWrite {s s' : State} (h : sameReads s s') (a v : Word) :
    sameReads (s.memWrite a v) (s'.memWrite a v) := by
  obtain ⟨m, rfl, hread⟩ := (sameReads_iff s s').1 h
  refine (sameReads_iff _ _).2 ⟨m.write a v, rfl, fun b => ?_⟩
  rw [memWrite_mem, Memory.read_write, Memory.read_write, hread b]

/-- Every operation of an instruction keeps two states alike, and what it observes is the same in both. -/
theorem congruence_sameReads : Congruence sameReads where
  pc h := by rw [h.1]
  cost h := by rw [h.1]
  par h := by rw [h.1]
  inRead h := by rw [h.1]; rfl
  memRead h := h.2
  raise h kind p := blindToMemory.sameReads (f := raise kind p) (fun _ _ => rfl) h
  halt h := blindToMemory.sameReads (f := State.halt) (fun _ _ => rfl) h
  addCompute h c := blindToMemory.sameReads (f := (·.addCompute c)) (fun _ _ => rfl) h
  addIo h c := blindToMemory.sameReads (f := (·.addIo c)) (fun _ _ => rfl) h
  setReg h k v := blindToMemory.sameReads (f := (·.setReg k v)) (fun _ _ => rfl) h
  setPc h p := blindToMemory.sameReads (f := (·.setPc p)) (fun _ _ => rfl) h
  memWrite h a v := sameReads_memWrite h a v
  outWrite h v := blindToMemory.sameReads (f := (·.outWrite v)) (fun _ _ => rfl) h
  takeInput h := blindToMemory_takeInput.sameReads h

/-- An instruction run from two such states answers two such states. -/
theorem exec_sameReads (i : Instr) {s s' t : State} (h : sameReads s s') (ht : exec i s = .next t) :
    ∃ t', exec i s' = .next t' ∧ sameReads t t' := by
  have hregs : ∀ k, s'.reg k = s.reg k := fun k => reg_of_x s s' k (by rw [h.1])
  obtain ⟨u, t', hu, ht', hrel, _⟩ := exec_alike congruence_sameReads i h fun k _ => hregs k
  exact ⟨t', ht', next_unique ht hu ▸ hrel⟩

/-- A cycle too: both fetch the same entry (R45, R200 to R203). -/
theorem cycle_sameReads {s s' u : State} (h : sameReads s s') (hu : cycle s = .next u) :
    ∃ u', cycle s' = .next u' ∧ sameReads u u' := by
  have hfetch : s'.fetch = s.fetch := by rw [h.1]; rfl
  have htrap (kind : TrapKind) : sameReads (raise kind s.pc s) (raise kind s'.pc s') := by
    rw [congruence_sameReads.pc h]
    exact congruence_sameReads.raise h kind s.pc
  rcases cycle_cases s with ⟨hf, hc⟩ | ⟨e, why, hf, hd, hc⟩ | ⟨e, i, t, hf, hd, ht, hc⟩
  · refine ⟨_, ?_, next_unique hu hc ▸ htrap _⟩
    simp [cycle, hfetch, hf]
  · refine ⟨_, ?_, next_unique hu hc ▸ htrap _⟩
    simp [cycle, hfetch, hf, runDecoded, hd]
  · obtain ⟨t', ht', hrel⟩ := exec_sameReads i h ht
    refine ⟨t'.boundCheck, ?_, next_unique hu hc ▸ blindToMemory_boundCheck.sameReads hrel⟩
    simp [cycle, hfetch, hf, runDecoded, hd, ht']

/-- What a step logs and counts does not depend on memory (R237, R243). -/
theorem logStep_countStep_sameReads {s s' u u' : State} (h : sameReads s s') (hu : sameReads u u') :
    sameReads (State.logStep s u).countStep (State.logStep s' u').countStep := by
  have hentries : stepEntries s' u' = stepEntries s u := by rw [h.1, hu.1]; rfl
  unfold State.logStep
  rw [hentries]
  exact blindToMemory.sameReads (f := State.countStep) (fun _ _ => rfl) ((blindToMemory_pushLogs _).sameReads hu)

/-- A step command from two such states answers two such states. -/
theorem step_sameReads {s s' t : State} (h : sameReads s s') (ht : step s = .next t) :
    ∃ t', step s' = .next t' ∧ sameReads t t' := by
  rcases step_cases s t ht with ⟨hcan, u, hu, rfl⟩ | ⟨hended, hover, rfl⟩
  · have hcan' : s'.canStep := by rw [h.1]; exact hcan
    obtain ⟨u', hu', hrel⟩ := cycle_sameReads h hu
    exact ⟨_, by rw [step_of_canStep s' hcan', hu', mapNext_next], logStep_countStep_sameReads h hrel⟩
  · have hended' : s'.ended = false := by rw [h.1]; exact hended
    have hover' : s'.rs ≠ .ready := by rw [h.1]; exact hover
    exact ⟨_, step_of_over s' hended' hover', (blindToMemory_pushLog .refused).sameReads h⟩

/-- A run of `n + 1` steps answers a state exactly where its first step does and the other `n` do from there. -/
theorem run_succ_eq_next (n : Nat) (s t : State) :
    Host.Core.run core (n + 1) s = .next t ↔ ∃ u, step s = .next u ∧ Host.Core.run core n u = .next t := by
  rw [run_succ]
  cases step s with
  | next u => exact ⟨fun h => ⟨u, rfl, h⟩, fun ⟨v, hv, h⟩ => Host.Outcome.next.inj hv ▸ h⟩
  | fault r => exact ⟨fun h => (nomatch h), fun ⟨_, hv, _⟩ => nomatch hv⟩
  | refused r => exact ⟨fun h => (nomatch h), fun ⟨_, hv, _⟩ => nomatch hv⟩

/-- Settles O49: one step keeps the two runs alike, so every number of steps does. -/
theorem materializationUnobservable : Obligations.MaterializationUnobservable := by
  intro n
  induction n with
  | zero => exact fun s s' t h ht => ⟨s', rfl, next_unique (o := .next s) rfl ht ▸ h⟩
  | succ n ih =>
    intro s s' t h ht
    obtain ⟨u, hu, hrun⟩ := (run_succ_eq_next n s t).1 ht
    obtain ⟨u', hu', hrel⟩ := step_sameReads h hu
    obtain ⟨t', hrun', hrel'⟩ := ih u u' t hrel hrun
    exact ⟨t', (run_succ_eq_next n s' t').2 ⟨u', hu', hrun'⟩, hrel'⟩

end Sys2Proof.Proofs
end

section
/-! PROOFS. Decoding and encoding (30_encoding.md). A word decodes to an instruction exactly when it is that instruction's
encoding (`decodeWord_eq_ok`). The case split over the 20 opcodes is made for records only, by operand shape; a word is its
opcode number and its operand field. -/

namespace Sys2Proof.Proofs

/-! ### Records (R60, R61, R65) -/

/-- The record of every instruction is well-formed and decodes to it: the laws of PerInstr.lean together. -/
theorem toRecord_recordForm (i : Instr) : Laws.RecordForm.Statement i :=
  match i with
  | .read => Laws.RecordForm.read
  | .write => Laws.RecordForm.write
  | .load a => Laws.RecordForm.load a
  | .store a => Laws.RecordForm.store a
  | .rload k => Laws.RecordForm.rload k
  | .rstore k => Laws.RecordForm.rstore k
  | .add k => Laws.RecordForm.add k
  | .sub k => Laws.RecordForm.sub k
  | .swp k => Laws.RecordForm.swp k
  | .rst k => Laws.RecordForm.rst k
  | .inc k => Laws.RecordForm.inc k
  | .dec k => Laws.RecordForm.dec k
  | .shl k => Laws.RecordForm.shl k
  | .shr k => Laws.RecordForm.shr k
  | .jump t => Laws.RecordForm.jump t
  | .jpos t => Laws.RecordForm.jpos t
  | .jzero t => Laws.RecordForm.jzero t
  | .call t => Laws.RecordForm.call t
  | .rtrn => Laws.RecordForm.rtrn
  | .halt => Laws.RecordForm.halt

/-- The integers 0 to 7 are the register indices (R20). -/
theorem index_in_range_iff (k : Int) : (0 ≤ k ∧ k < 8) ↔ ∃ r : Reg, k = (r.val : Int) := by
  constructor
  · intro h
    exact ⟨⟨k.toNat, by omega⟩, (Int.toNat_of_nonneg h.1).symm⟩
  · rintro ⟨r, rfl⟩
    have := r.isLt
    omega

theorem decodeNoOperand_ok {o : Operand} {i j : Instr} (h : decodeNoOperand o i = .ok j) : o = .absent ∧ i = j := by
  cases o with
  | absent => exact ⟨rfl, Decoded.ok.inj h⟩
  | reg k | lit v => cases h

theorem decodeLiteral_ok {o : Operand} {mk : Word → Instr} {j : Instr} (h : decodeLiteral o mk = .ok j) :
    ∃ v, o = .lit v ∧ mk v = j := by
  cases o with
  | lit v => exact ⟨v, rfl, Decoded.ok.inj h⟩
  | absent | reg k => cases h

theorem decodeRegister_ok {o : Operand} {mk : Reg → Instr} {j : Instr} (h : decodeRegister o mk = .ok j) :
    ∃ k : Reg, o = .reg (k.val : Int) ∧ mk k = j := by
  cases o with
  | absent | lit v => cases h
  | reg k =>
    by_cases hk : 0 ≤ k ∧ k < 8
    · obtain ⟨r, rfl⟩ := (index_in_range_iff k).1 hk
      rw [Laws.register_operand_decodes] at h
      exact ⟨r, rfl, Decoded.ok.inj h⟩
    · simp [decodeRegister, hk] at h

/-- Nothing of a record is lost when it decodes: it is the record of what it decodes to. -/
theorem toRecord_of_decode {r : Record} {i : Instr} (h : r.decode = .ok i) : i.toRecord = r := by
  obtain ⟨op, o⟩ := r
  cases op with
  | read | write | rtrn | halt =>
    obtain ⟨rfl, rfl⟩ := decodeNoOperand_ok h
    rfl
  | load | store | jump | jpos | jzero | call =>
    obtain ⟨v, rfl, rfl⟩ := decodeLiteral_ok h
    rfl
  | rload | rstore | add | sub | swp | rst | inc | dec | shl | shr =>
    obtain ⟨k, rfl, rfl⟩ := decodeRegister_ok h
    rfl

/-- Settles O4: decoding keeps the record, and every instruction's record is well-formed and decodes to it. -/
theorem recordDecodesExactly : Obligations.RecordDecodesExactly := by
  intro r i
  obtain ⟨hwf, hdec⟩ := toRecord_recordForm i
  constructor
  · intro h
    have hr : i.toRecord = r := toRecord_of_decode h
    exact ⟨hr ▸ hwf, hr⟩
  · rintro ⟨_, rfl⟩
    exact hdec

/-! ### Well-formedness by operand shape (R61) -/

theorem wellFormed_noOperand {op : Opcode} (o : Operand) (hs : op.shape = .noOperand) :
    Record.wellFormed ⟨op, o⟩ = true ↔ o = .absent := by
  cases o <;> simp [Record.wellFormed, Record.shapeOk, Record.indexOk, hs]

theorem wellFormed_literal {op : Opcode} (o : Operand) (hs : op.shape = .literal) :
    Record.wellFormed ⟨op, o⟩ = true ↔ ∃ v, o = .lit v := by
  cases o <;> simp [Record.wellFormed, Record.shapeOk, Record.indexOk, hs]

theorem wellFormed_register {op : Opcode} (o : Operand) (hs : op.shape = .register) :
    Record.wellFormed ⟨op, o⟩ = true ↔ ∃ k : Reg, o = .reg (k.val : Int) := by
  cases o <;> simp [Record.wellFormed, Record.shapeOk, Record.indexOk, hs, index_in_range_iff]

/-- A well-formed record is not `Illegal` (R65). -/
theorem decode_of_wellFormed {r : Record} (h : r.wellFormed = true) : ∃ i, r.decode = .ok i := by
  obtain ⟨op, o⟩ := r
  cases op with
  | read | write | rtrn | halt =>
    obtain rfl := (wellFormed_noOperand o rfl).1 h
    exact ⟨_, rfl⟩
  | load | store | jump | jpos | jzero | call =>
    obtain ⟨v, rfl⟩ := (wellFormed_literal o rfl).1 h
    exact ⟨_, rfl⟩
  | rload | rstore | add | sub | swp | rst | inc | dec | shl | shr =>
    obtain ⟨k, rfl⟩ := (wellFormed_register o rfl).1 h
    exact ⟨_, Laws.register_operand_decodes k _⟩

/-! ### Opcode numbers (R63) -/

/-- The opcode numbers are 0 to 0x13, in the order of the table. -/
theorem opcode_numbers : Opcode.all.map (fun op => op.number.toNat) = List.range 0x14 := rfl

/-- An opcode is found exactly under its own number. -/
theorem ofNumber_eq_some {b : Byte} {op : Opcode} : Opcode.ofNumber b = some op ↔ op.number = b := by
  constructor
  · intro h
    exact beq_iff_eq.1 (List.find?_some (p := fun c : Opcode => c.number == b) h)
  · rintro rfl
    cases op <;> rfl

/-- The reserved numbers are those from 0x14 on (R65 (a)). -/
theorem ofNumber_eq_none {b : Byte} : Opcode.ofNumber b = none ↔ 0x14 ≤ b.toNat := by
  calc Opcode.ofNumber b = none
      ↔ b.toNat ∉ Opcode.all.map (fun op => op.number.toNat) := by
        simp [Opcode.ofNumber, BitVec.toNat_inj]
    _ ↔ 0x14 ≤ b.toNat := by
        rw [opcode_numbers, List.mem_range, not_lt]

theorem number_lt (op : Opcode) : op.number.toNat < 0x14 := by
  cases op <;> decide

/-- The opcodes with a register operand are 0x04 to 0x0D. -/
theorem shape_eq_register (op : Opcode) :
    op.shape = .register ↔ 0x04 ≤ op.number.toNat ∧ op.number.toNat ≤ 0x0D := by
  cases op <;> decide

/-- The opcodes without an operand are 0, 1, 0x12 and 0x13. -/
theorem shape_eq_noOperand (op : Opcode) :
    op.shape = .noOperand ↔ op.number.toNat ≤ 0x01 ∨ op.number.toNat = 0x12 ∨ op.number.toNat = 0x13 := by
  cases op <;> decide

/-! ### Operand fields (R64) -/

/-- The upper 61 bits of a register field are 0 exactly when it is below 8, and then it is the index (R64, R65 (b)). -/
theorem assembleOperand_register (f : Word) :
    assembleOperand .register f =
      if f.toNat < 8 then .ok (.reg (f.toNat : Int)) else .error .registerOutOfRange := by
  have hf := f.isLt
  have hhigh : f.extractLsb' 3 61 = 0 ↔ f.toNat < 8 := by
    rw [← BitVec.toNat_inj]
    change f.toNat >>> 3 % 2 ^ 61 = 0 ↔ f.toNat < 8
    rw [Nat.shiftRight_eq_div_pow]
    omega
  by_cases h : f.toNat < 8
  · have hlow : (f.extractLsb' 0 3).toNat = f.toNat := Nat.mod_eq_of_lt h
    simp only [assembleOperand, hhigh, if_pos h, hlow]
  · simp only [assembleOperand, hhigh, if_neg h]

/-- A field is refused in two cases: it is no register index, or it stands where there is no operand (R65 (b), (c)). -/
theorem assembleOperand_error (sh : Shape) (f : Word) :
    (∃ why, assembleOperand sh f = .error why) ↔ sh = .register ∧ 8 ≤ f.toNat ∨ sh = .noOperand ∧ f.toNat ≠ 0 := by
  cases sh with
  | literal => simp [assembleOperand]
  | noOperand =>
    have hzero : f.toNat = 0 ↔ f = 0#64 := BitVec.toNat_inj (y := 0#64)
    by_cases h : f = 0#64 <;> simp [assembleOperand, hzero, h]
  | register =>
    by_cases h : f.toNat < 8
    · simp [assembleOperand_register, h]
    · simp [assembleOperand_register, h, not_lt.1 h]

/-- The field of a register index is the index itself. -/
theorem reg_field_toNat (k : Reg) : (Operand.reg (k.val : Int)).field.toNat = k.val := by
  rw [Operand.field, BitVec.ofInt_natCast, BitVec.toNat_ofNat]
  exact Nat.mod_eq_of_lt (k.isLt.trans (by decide))

/-- Assembly gives back the operand of a well-formed record from its field. -/
theorem assembleOperand_field {op : Opcode} {o : Operand} (hwf : Record.wellFormed ⟨op, o⟩ = true) :
    assembleOperand op.shape o.field = .ok o := by
  cases hs : op.shape with
  | noOperand =>
    obtain rfl := (wellFormed_noOperand o hs).1 hwf
    rfl
  | literal =>
    obtain ⟨v, rfl⟩ := (wellFormed_literal o hs).1 hwf
    rfl
  | register =>
    obtain ⟨k, rfl⟩ := (wellFormed_register o hs).1 hwf
    rw [assembleOperand_register, reg_field_toNat, if_pos k.isLt]

/-- What assembly accepts makes a well-formed record, and no bit of the field is dropped. -/
theorem wellFormed_of_assembleOperand {op : Opcode} {f : Word} {o : Operand}
    (h : assembleOperand op.shape f = .ok o) : Record.wellFormed ⟨op, o⟩ = true ∧ o.field = f := by
  cases hs : op.shape with
  | noOperand =>
    rw [hs, assembleOperand] at h
    split at h
    · next hf =>
      obtain rfl := Except.ok.inj h
      exact ⟨(wellFormed_noOperand _ hs).2 rfl, hf.symm⟩
    · cases h
  | literal =>
    rw [hs, assembleOperand] at h
    obtain rfl := Except.ok.inj h
    exact ⟨(wellFormed_literal _ hs).2 ⟨f, rfl⟩, rfl⟩
  | register =>
    rw [hs, assembleOperand_register] at h
    split at h
    · next hf =>
      obtain rfl := Except.ok.inj h
      exact ⟨(wellFormed_register _ hs).2 ⟨⟨f.toNat, hf⟩, rfl⟩, BitVec.eq_of_toNat_eq (reg_field_toNat ⟨f.toNat, hf⟩)⟩
    · cases h

/-! ### Words (R62, R66) -/

/-- A word is its two fields. -/
theorem opcField_append_opndField (w : IWord) : opcField w ++ opndField w = w :=
  BitVec.extractLsb'_append_extractLsb' (w := 8) (len := 64)

theorem opcField_append (b : Byte) (f : Word) : opcField (b ++ f) = b :=
  BitVec.extractLsb'_append_eq_left

theorem opndField_append (b : Byte) (f : Word) : opndField (b ++ f) = f :=
  BitVec.extractLsb'_append_eq_right

theorem opcField_toNat (w : IWord) : (opcField w).toNat = w.toNat / 2 ^ 64 := by
  have hw := w.isLt
  rw [opcField, BitVec.extractLsb'_toNat, Nat.shiftRight_eq_div_pow]
  omega

theorem opndField_toNat (w : IWord) : (opndField w).toNat = w.toNat % 2 ^ 64 := rfl

/-- A record's word is `w` exactly when both fields are the record's. -/
theorem record_encode_eq (r : Record) (w : IWord) :
    r.encode = w ↔ r.opcode.number = opcField w ∧ r.operand.field = opndField w := by
  constructor
  · rintro rfl
    exact ⟨(opcField_append _ _).symm, (opndField_append _ _).symm⟩
  · rintro ⟨hop, ho⟩
    rw [Record.encode, hop, ho, opcField_append_opndField]

/-! ### The decoder of words, one equation per branch (R65, R66) -/

theorem decodeWord_of_reserved {w : IWord} (h : Opcode.ofNumber (opcField w) = none) :
    decodeWord w = .illegal .reservedOpcode := by
  simp [decodeWord, h]

theorem decodeWord_of_refused {w : IWord} {op : Opcode} {why : IllegalReason} (hop : op.number = opcField w)
    (h : assembleOperand op.shape (opndField w) = .error why) : decodeWord w = .illegal why := by
  simp [decodeWord, ofNumber_eq_some.2 hop, h]

theorem decodeWord_of_assembled {w : IWord} {op : Opcode} {o : Operand} (hop : op.number = opcField w)
    (h : assembleOperand op.shape (opndField w) = .ok o) : decodeWord w = Record.decode ⟨op, o⟩ := by
  simp [decodeWord, ofNumber_eq_some.2 hop, h]

/-- The word of a well-formed record decodes as the record does. -/
theorem decodeWord_encode {r : Record} (hwf : r.wellFormed = true) : decodeWord r.encode = r.decode := by
  obtain ⟨hop, hfield⟩ := (record_encode_eq r _).1 rfl
  exact decodeWord_of_assembled hop (hfield ▸ assembleOperand_field hwf)

/-- A word that decodes is the word of a record that decodes alike. -/
theorem record_of_decodeWord {w : IWord} {i : Instr} (h : decodeWord w = .ok i) :
    ∃ r : Record, r.encode = w ∧ r.decode = .ok i := by
  cases hop : Opcode.ofNumber (opcField w) with
  | none => cases (decodeWord_of_reserved hop).symm.trans h
  | some op =>
    have hnum : op.number = opcField w := ofNumber_eq_some.1 hop
    cases ho : assembleOperand op.shape (opndField w) with
    | error why => cases (decodeWord_of_refused hnum ho).symm.trans h
    | ok o =>
      obtain ⟨_, hfield⟩ := wellFormed_of_assembleOperand ho
      exact ⟨⟨op, o⟩, (record_encode_eq _ w).2 ⟨hnum, hfield⟩, (decodeWord_of_assembled hnum ho).symm.trans h⟩

/-- A word decodes to an instruction exactly when it is the encoding of that instruction (R66). -/
theorem decodeWord_eq_ok (w : IWord) (i : Instr) : decodeWord w = .ok i ↔ encode i = w := by
  constructor
  · intro h
    obtain ⟨r, rfl, hr⟩ := record_of_decodeWord h
    rw [encode, toRecord_of_decode hr]
  · rintro rfl
    obtain ⟨hwf, hdec⟩ := toRecord_recordForm i
    exact (decodeWord_encode hwf).trans hdec

/-- Settles O2: the half of `decodeWord_eq_ok` from words to instructions. -/
theorem encodeOfDecode : Obligations.EncodeOfDecode :=
  fun w i h => (decodeWord_eq_ok w i).1 h

/-! ### Bytes (R62, R67) -/

/-- The nine bytes of a word, most significant first, make the word again. -/
theorem wordOfBytes_bytes (w : IWord) :
    wordOfBytes (w.extractLsb' 64 8) (w.extractLsb' 56 8) (w.extractLsb' 48 8) (w.extractLsb' 40 8)
      (w.extractLsb' 32 8) (w.extractLsb' 24 8) (w.extractLsb' 16 8) (w.extractLsb' 8 8) (w.extractLsb' 0 8) = w := by
  unfold wordOfBytes
  iterate 8 rw [BitVec.extractLsb'_append_extractLsb'_eq_extractLsb' (by rfl)]
  exact BitVec.extractLsb'_eq_self

/-- A word that decodes is read from the front of its bytes, and the bytes after it stay. -/
theorem decodeBytes_bytesOfWord {w : IWord} {i : Instr} (h : decodeWord w = .ok i) (rest : List Byte) :
    decodeBytes (bytesOfWord w ++ rest) = .ok (i, rest) := by
  simp [bytesOfWord, decodeBytes, wordOfBytes_bytes, h]

/-- Settles O1: the half of `decodeWord_eq_ok` from instructions to words, then through the nine bytes. -/
theorem decodeOfEncode : Obligations.DecodeOfEncode := by
  intro i _
  have hword : decodeWord (encode i) = .ok i := (decodeWord_eq_ok _ i).2 rfl
  exact ⟨hword, decodeBytes_bytesOfWord hword⟩

/-! ### Illegal words (R65) -/

/-- With an opcode of the table, a word is `Illegal` exactly when its operand field is refused. -/
theorem illegal_iff_refused {w : IWord} {op : Opcode} (hop : op.number = opcField w) :
    (∃ why, decodeWord w = .illegal why) ↔ ∃ why, assembleOperand op.shape (opndField w) = .error why := by
  cases ho : assembleOperand op.shape (opndField w) with
  | error why => exact ⟨fun _ => ⟨why, rfl⟩, fun _ => ⟨why, decodeWord_of_refused hop ho⟩⟩
  | ok o =>
    obtain ⟨hwf, _⟩ := wellFormed_of_assembleOperand ho
    obtain ⟨i, hi⟩ := decode_of_wellFormed hwf
    simp [decodeWord_of_assembled hop ho, hi]

/-- Settles O3: a reserved opcode is (a); for the others, the opcode's shape says which of (b) and (c) can hold. -/
theorem illegalWordsExactly : Obligations.IllegalWordsExactly := by
  intro w
  cases hop : Opcode.ofNumber (opcField w) with
  | none =>
    have hres : 0x14 ≤ w.toNat / 2 ^ 64 := opcField_toNat w ▸ ofNumber_eq_none.1 hop
    exact ⟨fun _ => .inl hres, fun _ => ⟨_, decodeWord_of_reserved hop⟩⟩
  | some op =>
    have hnum : op.number = opcField w := ofNumber_eq_some.1 hop
    have hlt := number_lt op
    rw [illegal_iff_refused hnum, assembleOperand_error, shape_eq_register, shape_eq_noOperand]
    rw [hnum, opcField_toNat] at hlt ⊢
    rw [opndField_toNat]
    omega

/-- Settles O5: each example word is the encoding of its instruction, or falls in a class of R65. -/
theorem exampleWordsDecode : Obligations.ExampleWordsDecode :=
  ⟨(decodeWord_eq_ok _ _).2 rfl, (decodeWord_eq_ok _ _).2 rfl, (decodeWord_eq_ok _ _).2 rfl,
   (decodeWord_eq_ok _ _).2 rfl, (illegalWordsExactly _).2 (by decide), (illegalWordsExactly _).2 (by decide),
   (illegalWordsExactly _).2 (by decide)⟩

end Sys2Proof.Proofs
end

section
/-! PROOFS. The template of an instruction rule (`instrRule`): the step around an instruction that runs (R200, R203), and
the paths of an instruction of the form "charge compute, then write" (R27). -/

namespace Sys2Proof.Proofs

open Sys2Proof.Machine Sys2Proof.Statements

/-! ### The step around an instruction -/

/-- The step that runs an instruction is its meaning, the bound check, then the log and the count. -/
theorem step_of_runs {s t : State} {i : Instr} (hruns : s.runs i) (hexec : exec i s = .next t) :
    step s = .next (State.logStep s t.boundCheck).countStep := by
  obtain ⟨hcan, e, hfetch, hdecode⟩ := hruns
  rw [step_of_canStep s hcan, cycle, hfetch]
  simp only [runDecoded, hdecode, hexec, mapNext_next]

/-- What the session adds is outside the core, so every instruction's step ends as R203 says. -/
theorem afterStep_of_exec (i : Instr) : afterStep i :=
  fun s t hruns hexec => ⟨_, step_of_runs hruns hexec, by rw [core_logStep_countStep, boundCheck_eq]⟩

/-- Where the bound check does not apply, a step is its instruction's meaning but for the log and the count of steps. -/
theorem step_of_runs_inBounds {s t : State} {i : Instr} (hruns : s.runs i) (hexec : exec i s = .next t)
    (hin : t.inBounds) : ∃ log, step s = .next { t with log := log, steps := t.steps + 1 } := by
  have hcheck : t.boundCheck = t := by rw [boundCheck_eq, if_neg fun h => h.2 hin]
  refine ⟨(State.logStep s t).log, ?_⟩
  rw [step_of_runs hruns hexec, hcheck, logStep_countStep_eq]

/-! ### Charge compute, then write -/

theorem commit_compute_of_fits (s : State) (c : Nat) (f : State → State) (h : s.chargeFits c) :
    commit s (s.chargeCompute c >>= fun s1 => pure (f s1)) = .next (f (s.addCompute c)) :=
  (commit_charged s c f).elim (fun hfull => absurd h hfull.2) And.left

theorem commit_compute_of_full (s : State) (c : Nat) (f : State → State) (h : ¬ s.chargeFits c) :
    commit s (s.chargeCompute c >>= fun s1 => pure (f s1)) = .next (raise .costOverflow s.pc s) :=
  (commit_charged s c f).elim And.left (fun hfits => absurd hfits.2 h)

/-- An instruction that charges compute and then writes, with no check of its own and no write to the meter, follows the
template: what is left to show is its word, its tabulated amount and what its writes do. -/
theorem instrRule_of_compute {i : Instr} {word : IWord} {price : CostTable → Nat} {amount : Nat}
    {post : State → State → Prop} (f : State → State → State)
    (hword : encode i = word) (hprice : price CostTable.source = amount)
    (hexec : ∀ s, exec i s = commit s (s.chargeCompute (price s.par.cost) >>= fun s1 => pure (f s s1)))
    (hcost : ∀ s s1, (f s s1).cost = s1.cost)
    (hpost : ∀ s, post s (f s (s.addCompute (price s.par.cost)))) :
    instrRule i word chargedCompute price amount neverBlocked post := by
  refine ⟨(decodeWord_eq_ok word i).2 hword, hprice, afterStep_of_exec i, fun s => ⟨fun _ h => (nomatch h), ?_, ?_⟩⟩
  · intro _ hfull
    rw [hexec, commit_compute_of_full s _ _ hfull]
  · intro _ hfits
    refine ⟨_, (hexec s).trans (commit_compute_of_fits s _ _ hfits), ?_, hpost s⟩
    rw [chargedCompute, hcost]
    exact ⟨addCompute_toNat s _ hfits, rfl⟩

/-- Two charges in a row that fit add up on the compute counter. -/
theorem addCompute_addCompute_toNat (s : State) (c d : Nat) (h : s.chargeFits (c + d)) :
    (s.cost.compute + BitVec.ofNat 64 c + BitVec.ofNat 64 d).toNat = s.cost.compute.toNat + (c + d) := by
  rw [BitVec.add_assoc, ← BitVec.ofNat_add]
  exact addCompute_toNat s (c + d) h

/-- Where the sum of two charges fits, the first alone does. -/
theorem chargeFits_of_add {s : State} {c d : Nat} (h : s.chargeFits (c + d)) : s.chargeFits c := by
  simp only [State.chargeFits] at h ⊢
  omega

/-- Where the sum of two charges fits, the second fits after the first. -/
theorem chargeFits_addCompute {s : State} {c d : Nat} (h : s.chargeFits (c + d)) : (s.addCompute c).chargeFits d := by
  have hgrow := addCompute_toNat s c (chargeFits_of_add h)
  simp only [State.chargeFits, CostMeter.total, addCompute_cost] at h ⊢
  omega

end Sys2Proof.Proofs
end

section
/-! PROOFS. The control family (41_control.md): HALT, and JUMP, JPOS, JZERO, CALL, RTRN by the template. -/

namespace Sys2Proof.Proofs

open Sys2Proof.Machine Sys2Proof.Statements

/-! ### Instructions that write only pc -/

theorem branchTo_pc (cond : Bool) (p : Word) (s : State) :
    (branchTo cond p s).pc = if cond then p else s.pc + 1 := by
  cases cond <;> rfl

/-- A conditional jump, taken or not, keeps the meter as the charge left it. -/
theorem branchTo_cost (cond : Bool) (p : Word) (s : State) : (branchTo cond p s).cost = s.cost := by
  cases cond <;> rfl

theorem onlyPcCost_branchTo (cond : Bool) (p : Word) (s : State) (c : Nat) :
    onlyPcCost s (branchTo cond p (s.addCompute c)) := by
  cases cond <;> rfl

/-- JPOS tests for a positive signed integer (R102). -/
theorem isPositive_eq_true (v : Word) : isPositive v = true ↔ 0 < v.toInt := decide_eq_true_iff

/-- JZERO tests for 0, on all 64 bits (R103). -/
theorem isZero_eq_true (v : Word) : isZero v = true ↔ v = 0 := by
  rw [isZero, decide_eq_true_iff]
  exact BitVec.toInt_inj (y := 0)

/-- An instruction that charges compute and then goes to `dest` where `cond` holds, else to the next index, follows the
template. -/
theorem instrRule_of_branch {i : Instr} {word : IWord} {price : CostTable → Nat} {amount : Nat}
    {post : State → State → Prop} (cond : State → Bool) (dest : State → Word)
    (hword : encode i = word) (hprice : price CostTable.source = amount)
    (hexec : ∀ s, exec i s =
      commit s (s.chargeCompute (price s.par.cost) >>= fun s1 => pure (branchTo (cond s) (dest s) s1)))
    (hpost : ∀ s t, t.pc = (if cond s then dest s else s.pc + 1) → onlyPcCost s t → post s t) :
    instrRule i word chargedCompute price amount neverBlocked post :=
  instrRule_of_compute (fun s s1 => branchTo (cond s) (dest s) s1) hword hprice hexec
    (fun _ _ => branchTo_cost _ _ _) (fun s => hpost s _ (branchTo_pc _ _ _) (onlyPcCost_branchTo _ _ s _))

/-- Settles O8: the template with the condition `0 < x[0]`. -/
theorem jposRule : Obligations.JposRule := by
  intro target
  refine instrRule_of_branch (fun s => isPositive (s.reg 0)) (fun _ => target) rfl rfl (fun _ => rfl) ?_
  intro s t hpc hframe
  simp only [isPositive_eq_true] at hpc
  exact ⟨fun hpos => hpc.trans (if_pos hpos), fun hneg => hpc.trans (if_neg (by omega)), hframe⟩

/-- Settles O9: the template with the condition `x[0] = 0`. -/
theorem jzeroRule : Obligations.JzeroRule := by
  intro target
  refine instrRule_of_branch (fun s => isZero (s.reg 0)) (fun _ => target) rfl rfl (fun _ => rfl) ?_
  intro s t hpc hframe
  simp only [isZero_eq_true] at hpc
  exact ⟨fun hzero => hpc.trans (if_pos hzero), fun hne => hpc.trans (if_neg hne), hframe⟩

/-- Settles O7: the template with a condition that always holds. -/
theorem jumpRule : Obligations.JumpRule :=
  fun target => instrRule_of_branch (fun _ => true) (fun _ => target) rfl rfl (fun _ => rfl)
    (fun _ _ hpc hframe => ⟨hpc, hframe⟩)

/-- Settles O11: the template with a condition that always holds, and the old x[0] as the target. -/
theorem rtrnRule : Obligations.RtrnRule :=
  instrRule_of_branch (fun _ => true) (fun s => s.reg 0) rfl rfl (fun _ => rfl)
    (fun _ _ hpc hframe => ⟨hpc, hframe⟩)

/-! ### CALL and HALT -/

/-- Settles O10: the return address is exact where pc is in range (R25). -/
theorem callRule : Obligations.CallRule := by
  intro target
  refine instrRule_of_compute (fun s s1 => (s1.setReg 0 (s.pc + 1)).setPc target) rfl rfl (fun _ => rfl)
    (fun _ _ => rfl) fun s => ?_
  refine ⟨reg_setReg_self _ 0 _, fun hin hlen => ?_, fun j hj => reg_setReg_of_ne _ 0 j _ hj, rfl, rfl⟩
  rw [reg_setPc, reg_setReg_self, pc_add_one_toInt s hin hlen]

/-- Settles O6: the bound check is for a Ready run only, and after HALT the run is Halted. -/
theorem haltRule : Obligations.HaltRule := by
  refine ⟨(decodeWord_eq_ok _ _).2 rfl, fun s => ⟨rfl, fun hruns => ?_⟩⟩
  obtain ⟨u, hstep, hcore⟩ := afterStep_of_exec .halt s s.halt hruns rfl
  rw [if_neg fun h => (nomatch h.1)] at hcore
  exact ⟨u, hstep, hcore⟩

/-! ### CALL, then RTRN -/

/-- The state after a step that ran CALL without a trap, with what the log then holds. -/
def afterCall (s : State) (target : Word) (log : List LogEntry) : State :=
  { ((s.addCompute s.par.cost.call).setReg 0 (s.pc + 1)).setPc target with log := log, steps := s.steps + 1 }

theorem reg_afterCall (s : State) (target : Word) (log : List LogEntry) (j : Reg) :
    (afterCall s target log).reg j = if j = 0 then s.pc + 1 else s.reg j :=
  reg_setReg (s.addCompute s.par.cost.call) 0 j (s.pc + 1)

/-- A step that runs CALL with a target in range, where the charge fits. -/
theorem step_call {s : State} {target : Word} (hruns : s.runs (.call target)) (hfits : s.chargeFits s.par.cost.call)
    (hin : 0 ≤ target.toInt ∧ target.toInt < s.prog.length) : ∃ log, step s = .next (afterCall s target log) :=
  step_of_runs_inBounds hruns (commit_compute_of_fits s _ _ hfits) hin

/-- A step that runs RTRN with x[0] in range, where the charge fits. -/
theorem step_rtrn {s : State} (hruns : s.runs .rtrn) (hfits : s.chargeFits s.par.cost.rtrn)
    (hin : 0 ≤ (s.reg 0).toInt ∧ (s.reg 0).toInt < s.prog.length) :
    ∃ log, step s = .next { (s.addCompute s.par.cost.rtrn).setPc (s.reg 0) with log := log, steps := s.steps + 1 } :=
  step_of_runs_inBounds hruns (commit_compute_of_fits s _ _ hfits) hin

/-- Without a step ceiling, a Ready run in an open session runs what the entry at pc decodes to. -/
theorem runs_of_entry {s : State} {e : ProgEntry} {i : Instr} (hended : s.ended = false) (hready : s.rs = .ready)
    (hceiling : s.par.stepCeiling = none) (hpc : 0 ≤ s.pc.toInt) (hentry : s.prog[s.pc.toInt.toNat]? = some e)
    (hdecode : e.decode = .ok i) : s.runs i :=
  ⟨⟨hended, hready, by simp [State.ceilingReached, hceiling]⟩, e, by rw [State.fetch, if_pos hpc, hentry], hdecode⟩

/-- Settles O12: the CALL's step ends at the RTRN with x[0] = pc + 1, which is exact and in range, so the RTRN's step goes
there; it changes only pc, the meter, the log and the count, and the CALL's step x[0] beside these. -/
theorem callThenReturn : Obligations.CallThenReturn := by
  intro s target e hruns hceiling hfits hpos hentry hdecode hnext hlen
  have ⟨⟨hended, hready, _⟩, e₀, hfetch, _⟩ := hruns
  have hin : s.inBounds := (fetch_isSome s).1 ⟨e₀, hfetch⟩
  have hexact : (s.pc + 1).toInt = s.pc.toInt + 1 := pc_add_one_toInt s hin hlen
  have htarget : target.toInt < s.prog.length := by
    obtain ⟨hlt, _⟩ := List.getElem?_eq_some_iff.1 hentry
    omega
  obtain ⟨log, hcall⟩ := step_call hruns (chargeFits_of_add hfits) ⟨hpos, htarget⟩
  have hrunsRtrn : (afterCall s target log).runs .rtrn :=
    runs_of_entry hended hready hceiling hpos hentry hdecode
  have hlink : (afterCall s target log).reg 0 = s.pc + 1 := reg_afterCall s target log 0
  have hback : 0 ≤ ((afterCall s target log).reg 0).toInt ∧
      ((afterCall s target log).reg 0).toInt < s.prog.length := by
    rw [hlink, hexact]
    exact ⟨Int.add_nonneg hin.1 Int.one_nonneg, hnext⟩
  obtain ⟨_, hrtrn⟩ := step_rtrn hrunsRtrn (chargeFits_addCompute hfits) hback
  refine ⟨_, (run_succ_eq_next _ _ _).2 ⟨_, hcall, (run_succ_eq_next _ _ _).2 ⟨_, hrtrn, rfl⟩⟩, hready, hlink, hlink,
    fun j hj => ?_, ⟨addCompute_addCompute_toNat s _ _ hfits, rfl⟩, rfl, rfl⟩
  exact (reg_afterCall s target log j).trans (if_neg hj)

end Sys2Proof.Proofs
end

section
/-! PROOFS. The memory-transfer family (42_memory_transfer.md): LOAD and RLOAD, STORE and RSTORE, each pair by one rule
over the effective address, which is computed on the state before (R44). -/

namespace Sys2Proof.Proofs

open Sys2Proof.Machine Sys2Proof.Statements

/-- The operand field the encoder writes for a register is the one R64 names. -/
theorem reg_field_eq_regField (k : Reg) : (Operand.reg (k.val : Int)).field = regField k :=
  BitVec.ofInt_natCast 64 k.val

/-- The frame of a write to memory: the written address holds the word and is materialized (for 0 too, R121), and no
other address changes. -/
theorem storesAt_of_write {s t : State} {a v : Word} (h : t.mem = s.mem.write a v) : storesAt s t a v := by
  refine ⟨?_, ?_, fun b hb => ⟨?_, ?_⟩⟩
  · rw [h, Memory.read_write, if_pos rfl]
  · rw [h, Memory.materialized_write, if_pos rfl]
  · rw [h, Memory.read_write, if_neg hb]
  · rw [h, Memory.materialized_write, if_neg hb]

/-- An instruction that charges compute and then loads x[0] from `addr` follows the template. The address is that of the
state before, so x[0] may itself be what it is computed from. -/
theorem instrRule_of_load {i : Instr} {word : IWord} {price : CostTable → Nat} {amount : Nat} (addr : State → Word)
    (hword : encode i = word) (hprice : price CostTable.source = amount)
    (hexec : ∀ s, exec i s = commit s (s.chargeCompute (price s.par.cost) >>= fun s1 =>
      pure (s1.setReg 0 (s.mem.read (addr s))).advance)) :
    instrRule i word chargedCompute price amount neverBlocked fun s t =>
      t.reg 0 = s.mem.read (addr s) ∧ (s.mem.materialized (addr s) = false → t.reg 0 = 0) ∧
        keepsRegsBut s t 0 ∧ t.pc = s.pc + 1 ∧ keepsMemory s t ∧ onlyRegsPcCost s t := by
  refine instrRule_of_compute (fun s s1 => (s1.setReg 0 (s.mem.read (addr s))).advance) hword hprice hexec
    (fun _ _ => rfl) fun s => ?_
  have hload : (((s.addCompute (price s.par.cost)).setReg 0 (s.mem.read (addr s))).advance).reg 0 =
      s.mem.read (addr s) := reg_setReg_self _ 0 _
  exact ⟨hload, fun hunset => hload.trans (Memory.read_unmaterialized _ _ hunset),
    fun j hj => reg_setReg_of_ne _ 0 j _ hj, rfl, fun _ => ⟨rfl, rfl⟩, rfl⟩

/-- An instruction that charges compute and then stores x[0] to `addr` follows the template, and writes no register. -/
theorem instrRule_of_store {i : Instr} {word : IWord} {price : CostTable → Nat} {amount : Nat} (addr : State → Word)
    (hword : encode i = word) (hprice : price CostTable.source = amount)
    (hexec : ∀ s, exec i s = commit s (s.chargeCompute (price s.par.cost) >>= fun s1 =>
      pure (s1.memWrite (addr s) (s.reg 0)).advance)) :
    instrRule i word chargedCompute price amount neverBlocked fun s t =>
      storesAt s t (addr s) (s.reg 0) ∧ t.pc = s.pc + 1 ∧ t = { s with mem := t.mem, pc := t.pc, cost := t.cost } :=
  instrRule_of_compute (fun s s1 => (s1.memWrite (addr s) (s.reg 0)).advance) hword hprice hexec
    (fun _ _ => rfl) (fun _ => ⟨storesAt_of_write rfl, rfl, rfl⟩)

/-- Settles O13: the load rule at the literal address. -/
theorem loadRule : Obligations.LoadRule :=
  fun a => instrRule_of_load (directAddress a) rfl rfl (fun _ => rfl)

/-- Settles O14: the store rule at the literal address. -/
theorem storeRule : Obligations.StoreRule :=
  fun a => instrRule_of_store (directAddress a) rfl rfl (fun _ => rfl)

/-- Settles O15: the load rule at the address x[k] held before, for `k = 0` as well. -/
theorem rloadRule : Obligations.RloadRule :=
  fun k => instrRule_of_load (indirectAddress k) (congrArg (0x04 ++ ·) (reg_field_eq_regField k)) rfl (fun _ => rfl)

/-- Settles O16: the store rule at the address x[k] holds, for `k = 0` as well. -/
theorem rstoreRule : Obligations.RstoreRule :=
  fun k => instrRule_of_store (indirectAddress k) (congrArg (0x05 ++ ·) (reg_field_eq_regField k)) rfl (fun _ => rfl)

end Sys2Proof.Proofs
end

section
/-! PROOFS. The arithmetic family (43_arithmetic.md): ADD and SUB by the template of a checked result (R10), SWP by that of
"charge compute, then write"; what SUB and DEC leave non-negative (90_conflicts.md C1). -/

namespace Sys2Proof.Proofs

open Sys2Proof.Machine Sys2Proof.Statements

/-! ### Check a result, charge compute, then write one register -/

theorem overflowTrap_eq_some {s : State} {v : Int} (hout : ¬ inInt64 v) (hmode : s.par.overflowMode = .fault) :
    overflowTrap s v = some .arithmeticOverflow :=
  if_pos ⟨hmode, hout⟩

theorem overflowTrap_eq_none {s : State} {v : Int} (h : inInt64 v ∨ s.par.overflowMode = .wrap) :
    overflowTrap s v = none := by
  refine if_neg fun ⟨hmode, hout⟩ => ?_
  rcases h with hin | hwrap
  · exact hout hin
  · rw [hmode] at hwrap
    exact nomatch hwrap

/-- An instruction that checks an exact result, charges compute and then writes the result to x[k] follows the template.
The word written is the result modulo 2^64 in either mode; in mode fault it is written only where that is exact. -/
theorem instrRule_of_checked {i : Instr} {word : IWord} {price : CostTable → Nat} {amount : Nat}
    {post : State → State → Prop} (k : Reg) (v : State → Int)
    (hword : encode i = word) (hprice : price CostTable.source = amount)
    (hexec : ∀ s, exec i s = commit s (checked s.par.overflowMode (v s) >>= fun w =>
      s.chargeCompute (price s.par.cost) >>= fun s1 => pure (s1.setReg k w).advance))
    (hpost : ∀ s t, t.reg k = BitVec.ofInt 64 (v s) →
      keepsRegsBut s t k ∧ t.pc = s.pc + 1 ∧ keepsMemory s t ∧ onlyRegsPcCost s t → post s t) :
    instrRule i word chargedCompute price amount (fun s => overflowTrap s (v s)) post := by
  refine ⟨(decodeWord_eq_ok word i).2 hword, hprice, afterStep_of_exec i, fun s => ?_⟩
  simp only [hexec]
  rcases commit_checked s (v s) (price s.par.cost) (fun w s1 => (s1.setReg k w).advance) with
    ⟨htrap, hout, hmode⟩ | ⟨hok, hfull, htrap⟩ | ⟨hok, hfits, hnext⟩
  · rw [overflowTrap_eq_some hout hmode]
    exact ⟨fun _ h => by cases h; exact htrap, fun h => (nomatch h), fun h => (nomatch h)⟩
  · rw [overflowTrap_eq_none hok]
    exact ⟨fun _ h => (nomatch h), fun _ _ => htrap, fun _ h => absurd h hfull⟩
  · rw [overflowTrap_eq_none hok]
    refine ⟨fun _ h => (nomatch h), fun _ h => absurd hfits h, fun _ _ => ⟨_, hnext, ?_, hpost s _ ?_ ?_⟩⟩
    · exact ⟨addCompute_toNat s _ hfits, rfl⟩
    · exact reg_setReg_self _ k _
    · exact ⟨fun j hj => reg_setReg_of_ne _ k j _ hj, rfl, fun _ => ⟨rfl, rfl⟩, rfl⟩

/-! ### ADD and SUB -/

/-- Settles O17: the checked result is the exact sum, whose word is the sum modulo 2^64. -/
theorem addRule : Obligations.AddRule := by
  intro k
  refine instrRule_of_checked 0 (fun s => (s.reg 0).toInt + (s.reg k).toInt)
    (congrArg (0x06 ++ ·) (reg_field_eq_regField k)) rfl (fun _ => rfl) fun s t hsum hframe => ⟨?_, ?_, hframe⟩
  · intro hin
    rw [hsum, toInt_ofInt_of_inInt64 _ hin]
  · rw [hsum, BitVec.ofInt_add, BitVec.ofInt_toInt, BitVec.ofInt_toInt]

/-- The exact difference of two words, modulo 2^64, is the words' difference. -/
theorem ofInt_toInt_sub (a b : Word) : BitVec.ofInt 64 (a.toInt - b.toInt) = a - b :=
  BitVec.eq_of_toInt_eq ((BitVec.toInt_ofInt _).trans BitVec.toInt_sub.symm)

/-- SUB's result by the source's formula, as R141 rewords it. -/
theorem sub_min_eq_max (a b : Int) : a - min b a = max (a - b) 0 := by
  omega

/-- SUB's overflow as R141 words it is that of its checked result, which is never negative. -/
theorem subTrap_eq_overflowTrap (k : Reg) :
    subTrap k = fun s => overflowTrap s ((s.reg 0).toInt - min (s.reg k).toInt (s.reg 0).toInt) := by
  funext s
  refine if_congr (and_congr_right fun _ => ?_) rfl rfl
  omega

/-- Settles O18: the checked result is the saturating difference; where that leaves `Int64` it is the plain one. -/
theorem subRule : Obligations.SubRule := by
  intro k
  rw [subTrap_eq_overflowTrap]
  refine instrRule_of_checked 0 (fun s => (s.reg 0).toInt - min (s.reg k).toInt (s.reg 0).toInt)
    (congrArg (0x07 ++ ·) (reg_field_eq_regField k)) rfl (fun _ => rfl) fun s t hdiff hframe => ?_
  rw [sub_min_eq_max] at hdiff
  refine ⟨fun hle => ?_, fun hgt => ?_, hframe⟩
  · have hin : inInt64 (max ((s.reg 0).toInt - (s.reg k).toInt) 0) := by
      simp only [inInt64, int64Min, int64Max] at hle ⊢
      omega
    rw [hdiff, toInt_ofInt_of_inInt64 _ hin]
  · have hpos : 0 ≤ (s.reg 0).toInt - (s.reg k).toInt := by
      simp only [int64Max] at hgt
      omega
    rw [hdiff, max_eq_left hpos, ofInt_toInt_sub]

/-! ### SWP -/

/-- The registers after SWP's two writes, for `k = 0` too, where both write the same value. -/
theorem reg_exchange (s : State) (k j : Reg) :
    ((s.setReg 0 (s.reg k)).setReg k (s.reg 0)).reg j =
      if j = k then s.reg 0 else if j = 0 then s.reg k else s.reg j := by
  rw [reg_setReg, reg_setReg]

/-- Settles O19: the two writes at `j = 0`, at `j = k` and elsewhere. -/
theorem swpRule : Obligations.SwpRule := by
  intro k
  refine instrRule_of_compute (fun s s1 => ((s1.setReg 0 (s.reg k)).setReg k (s.reg 0)).advance)
    (congrArg (0x08 ++ ·) (reg_field_eq_regField k)) rfl (fun _ => rfl) (fun _ _ => rfl) fun s => ?_
  have hreg := reg_exchange (s.addCompute s.par.cost.swp) k
  refine ⟨(hreg 0).trans ?_, (hreg k).trans (if_pos rfl), fun j h0 hk => (hreg j).trans ?_, rfl,
    fun _ => ⟨rfl, rfl⟩, rfl⟩
  · split
    · next h => subst h; rfl
    · rfl
  · rw [if_neg hk, if_neg h0]; rfl

/-! ### What a rule says of an instruction that completed -/

section
variable {i : Instr} {word : IWord} {charged : State → State → Nat → Prop} {price : CostTable → Nat} {amount : Nat}
  {blocked : State → Option TrapKind} {post : State → State → Prop} {s t : State}

/-- Where nothing traps, the answered state is the one the rule describes. -/
theorem completed_of_fits (hrule : instrRule i word charged price amount blocked post) (hexec : exec i s = .next t)
    (hfree : blocked s = none) (hfits : s.chargeFits (price s.par.cost)) :
    charged s t (price s.par.cost) ∧ post s t := by
  obtain ⟨_, _, _, hpaths⟩ := hrule
  obtain ⟨_, _, hcompletes⟩ := hpaths s
  obtain ⟨u, hu, hcharged, hpost⟩ := hcompletes hfree hfits
  obtain rfl := next_unique hexec hu
  exact ⟨hcharged, hpost⟩

/-- A Ready run after an instruction means that none of its traps was taken. -/
theorem completed_of_ready (hrule : instrRule i word charged price amount blocked post) (hexec : exec i s = .next t)
    (hready : t.rs = .ready) : blocked s = none ∧ charged s t (price s.par.cost) ∧ post s t := by
  have ⟨_, _, _, hpaths⟩ := hrule
  obtain ⟨hblocked, hfull, _⟩ := hpaths s
  have hno_trap (kind : TrapKind) : exec i s ≠ .next (raise kind s.pc s) := by
    intro htrap
    rw [next_unique hexec htrap] at hready
    exact nomatch hready
  have hfree : blocked s = none := Option.eq_none_iff_forall_not_mem.2 fun kind h => hno_trap kind (hblocked kind h)
  have hfits : s.chargeFits (price s.par.cost) := not_not.1 fun h => hno_trap _ (hfull hfree h)
  exact ⟨hfree, completed_of_fits hrule hexec hfree hfits⟩

end

/-! ### SWP twice -/

/-- Where the sum of two charges fits, the second fits after the first has been made. -/
theorem chargeFits_of_charged {s t : State} {c d : Nat} (h : s.chargeFits (c + d)) (hfirst : chargedCompute s t c) :
    t.chargeFits d := by
  obtain ⟨hcompute, hio⟩ := hfirst
  simp only [State.chargeFits, CostMeter.total] at h ⊢
  rw [hcompute, hio]
  omega

/-- Charges on the compute counter add up. -/
theorem chargedCompute_trans {s t u : State} {c d : Nat} (hfirst : chargedCompute s t c) (hsecond : chargedCompute t u d) :
    chargedCompute s u (c + d) := by
  obtain ⟨hcompute, hio⟩ := hfirst
  obtain ⟨hcompute', hio'⟩ := hsecond
  exact ⟨by rw [hcompute', hcompute, Nat.add_assoc], hio'.trans hio⟩

/-- Settles O20: SWP's rule from `s` and again from `t`, where the parameters are the same and the second charge fits. -/
theorem swpTwiceRestores : Obligations.SwpTwiceRestores := by
  intro k s t u hfits ht hu
  obtain ⟨hcharged, h0, hk, hother, _, _, hframe⟩ :=
    completed_of_fits (swpRule k) ht rfl (chargeFits_of_add hfits)
  have hpar : t.par = s.par := by rw [show t = _ from hframe]
  have hfits' : t.chargeFits t.par.cost.swp := by
    rw [hpar]
    exact chargeFits_of_charged hfits hcharged
  obtain ⟨hcharged', h0', hk', hother', _⟩ := completed_of_fits (swpRule k) hu rfl hfits'
  rw [hpar] at hcharged'
  refine ⟨fun j => ?_, chargedCompute_trans hcharged hcharged'⟩
  by_cases hj0 : j = 0
  · rw [hj0, h0', hk]
  · by_cases hjk : j = k
    · rw [hjk, hk', h0]
    · rw [hother' j hj0 hjk, hother j hj0 hjk]

/-! ### SUB and DEC stay non-negative -/

/-- A positive value decremented is exact (R162). -/
theorem decResult_toInt_of_pos {v : Word} (h : 0 < v.toInt) : (decResult v).toInt = v.toInt - 1 := by
  have hin : inInt64 (v.toInt - 1) := by
    obtain ⟨_, hmax⟩ := inInt64_toInt v
    simp only [inInt64, int64Min, int64Max] at hmax ⊢
    omega
  rw [decResult, if_pos ((isPositive_eq_true v).2 h), toInt_ofInt_of_inInt64 _ hin]

/-- A value that is not positive stays (R162). -/
theorem decResult_of_nonpos {v : Word} (h : v.toInt ≤ 0) : decResult v = v :=
  if_neg fun hpos => absurd ((isPositive_eq_true v).1 hpos) (not_lt.2 h)

theorem decResult_nonneg {v : Word} (h : 0 ≤ v.toInt) : 0 ≤ (decResult v).toInt := by
  rcases h.lt_or_eq with hpos | hzero
  · rw [decResult_toInt_of_pos hpos]
    omega
  · rwa [decResult_of_nonpos hzero.ge]

/-- DEC, completed or trapped, leaves a register as it was or decremented. -/
theorem reg_of_dec {k : Reg} {s t : State} (h : exec (.dec k) s = .next t) (j : Reg) :
    t.reg j = s.reg j ∨ t.reg j = decResult (s.reg j) := by
  rcases commit_charged s s.par.cost.dec (fun s1 => (s1.setReg k (decResult (s.reg k))).advance) with
    ⟨htrap, _⟩ | ⟨hnext, _⟩
  · obtain rfl := next_unique h htrap
    exact .inl rfl
  · obtain rfl := next_unique h hnext
    rw [reg_advance, reg_setReg]
    split
    · next hj => exact .inr (by rw [hj])
    · exact .inl rfl

/-- Without SUB's overflow the exact difference is at most the largest `Int64`, in mode fault. -/
theorem sub_le_of_subTrap_eq_none {k : Reg} {s : State} (hmode : s.par.overflowMode = .fault) (h : subTrap k s = none) :
    (s.reg 0).toInt - (s.reg k).toInt ≤ int64Max := by
  by_contra hgt
  simp only [int64Max, not_le] at hgt
  have htrap : subTrap k s = some .arithmeticOverflow := if_pos ⟨hmode, by omega, by omega⟩
  rw [htrap] at h
  exact nomatch h

/-- Settles O26: a SUB that did not trap leaves a maximum with 0, by its rule; DEC leaves a register or its decrement. -/
theorem subDecNonNegative : Obligations.SubDecNonNegative := by
  intro k j s t
  refine ⟨fun hmode hexec _ hready => ?_, fun hexec hnonneg => ?_⟩
  · obtain ⟨hfree, _, hsaturates, _⟩ := completed_of_ready (subRule k) hexec hready
    rw [hsaturates (sub_le_of_subTrap_eq_none hmode hfree)]
    exact le_max_right _ _
  · rcases reg_of_dec hexec j with hsame | hdec
    · rwa [hsame]
    · rw [hdec]
      exact decResult_nonneg hnonneg

end Sys2Proof.Proofs
end

section
/-! PROOFS. The register-only family (44_register_only.md): RST, DEC and SHR by one rule over the value written back, INC
and SHL by the template of a checked result (R10). -/

namespace Sys2Proof.Proofs

open Sys2Proof.Machine Sys2Proof.Statements

/-! ### Charge compute, then write one register: RST, DEC, SHR -/

/-- An instruction that charges compute and then writes `v`, computed on the state before, to x[k] follows the template. -/
theorem instrRule_of_register {i : Instr} {word : IWord} {price : CostTable → Nat} {amount : Nat}
    {post : State → State → Prop} (k : Reg) (v : State → Word)
    (hword : encode i = word) (hprice : price CostTable.source = amount)
    (hexec : ∀ s, exec i s =
      commit s (s.chargeCompute (price s.par.cost) >>= fun s1 => pure (s1.setReg k (v s)).advance))
    (hpost : ∀ s t, t.reg k = v s →
      keepsRegsBut s t k ∧ t.pc = s.pc + 1 ∧ keepsMemory s t ∧ onlyRegsPcCost s t → post s t) :
    instrRule i word chargedCompute price amount neverBlocked post :=
  instrRule_of_compute (fun s s1 => (s1.setReg k (v s)).advance) hword hprice hexec (fun _ _ => rfl) fun s =>
    hpost s _ (reg_setReg_self _ k _) ⟨fun j hj => reg_setReg_of_ne _ k j _ hj, rfl, fun _ => ⟨rfl, rfl⟩, rfl⟩

/-- Settles O21: the value written is 0. -/
theorem rstRule : Obligations.RstRule :=
  fun k => instrRule_of_register k (fun _ => 0) (congrArg (0x09 ++ ·) (reg_field_eq_regField k)) rfl (fun _ => rfl)
    fun _ _ hzero hframe => ⟨hzero, hframe⟩

/-- Settles O23: the value written is the decrement of a positive x[k], and x[k] itself otherwise. -/
theorem decRule : Obligations.DecRule := by
  intro k
  refine instrRule_of_register k (fun s => decResult (s.reg k)) (congrArg (0x0B ++ ·) (reg_field_eq_regField k)) rfl
    (fun _ => rfl) fun s t hdec hframe => ⟨fun hpos => ?_, fun hle => ?_, hframe⟩
  · rw [hdec, decResult_toInt_of_pos hpos]
  · rw [hdec, decResult_of_nonpos hle]

/-- SHR's result is half the value, rounded down (R164). -/
theorem shrResult_toInt (v : Word) : (shrResult v).toInt = v.toInt / 2 := by
  rw [shrResult, BitVec.toInt_sshiftRight, Int.shiftRight_eq_div_pow]
  rfl

/-- Settles O25: the bit lost by the floor of half is the remainder by 2, and the arithmetic shift keeps the sign. -/
theorem shrRule : Obligations.ShrRule := by
  intro k
  refine instrRule_of_register k (fun s => shrResult (s.reg k)) (congrArg (0x0D ++ ·) (reg_field_eq_regField k)) rfl
    (fun _ => rfl) fun s t hshr hframe => ⟨⟨(s.reg k).toInt % 2, Int.emod_two_eq _, ?_⟩, ?_, hframe⟩
  · rw [hshr, shrResult_toInt, Int.mul_ediv_add_emod]
  · rw [hshr, shrResult, BitVec.msb_sshiftRight]

/-! ### Check a result, charge compute, then write one register: INC, SHL -/

/-- Settles O22: the checked result x[k] + 1 leaves `Int64` only at its upper bound, and wraps to the lower one there. -/
theorem incRule : Obligations.IncRule := by
  intro k
  refine instrRule_of_checked k (fun s => (s.reg k).toInt + 1) (congrArg (0x0A ++ ·) (reg_field_eq_regField k)) rfl
    (fun _ => rfl) fun s t hinc hframe => ⟨fun hlt => ?_, fun hmax => ?_, hframe⟩
  · have hin : inInt64 ((s.reg k).toInt + 1) := by
      obtain ⟨hmin, _⟩ := inInt64_toInt (s.reg k)
      exact ⟨by omega, hlt⟩
    rw [hinc, toInt_ofInt_of_inInt64 _ hin]
  · rw [hinc, hmax]
    rfl

/-- SHL's overflow as R163 words it, by the bounds of x[k], is that of its checked result. -/
theorem shlTrap_eq_overflowTrap (k : Reg) : shlTrap k = fun s => overflowTrap s (2 * (s.reg k).toInt) := by
  funext s
  refine if_congr (and_congr_right fun _ => ?_) rfl rfl
  omega

/-- The exact double of a word, modulo 2^64, is its pattern shifted left by one (R163). -/
theorem ofInt_two_mul_toInt (v : Word) : BitVec.ofInt 64 (2 * v.toInt) = v <<< 1 := by
  rw [BitVec.ofInt_mul, BitVec.ofInt_toInt, BitVec.shiftLeft_eq_mul_twoPow, BitVec.mul_comm]
  rfl

/-- Settles O24: the checked result is the exact double, whose word is the shifted pattern. -/
theorem shlRule : Obligations.ShlRule := by
  intro k
  rw [shlTrap_eq_overflowTrap]
  refine instrRule_of_checked k (fun s => 2 * (s.reg k).toInt) (congrArg (0x0C ++ ·) (reg_field_eq_regField k)) rfl
    (fun _ => rfl) fun s t hdouble hframe => ⟨fun hin => ?_, ?_, hframe⟩
  · rw [hdouble, toInt_ofInt_of_inInt64 _ hin]
  · rw [hdouble, ofInt_two_mul_toInt]

end Sys2Proof.Proofs
end

section
/-! PROOFS. The IO family (45_io.md): READ and WRITE by one rule of the form "check, charge io, then write"; which trap an
instruction can raise, read off the rules; and what a step adds to the StepDriver's log (60_exceptions.md R237, R239). -/

namespace Sys2Proof.Proofs

open Sys2Proof.Machine Sys2Proof.Statements

/-! ### Check, charge io, then write -/

theorem commit_io_of_fits (s : State) (c : Nat) (f : State → State) (h : s.chargeFits c) :
    commit s (s.chargeIo c >>= fun s1 => pure (f s1)) = .next (f (s.addIo c)) :=
  (commit_chargedIo s c f).elim (fun hfull => absurd h hfull.2) And.left

theorem commit_io_of_full (s : State) (c : Nat) (f : State → State) (h : ¬ s.chargeFits c) :
    commit s (s.chargeIo c >>= fun s1 => pure (f s1)) = .next (raise .costOverflow s.pc s) :=
  (commit_chargedIo s c f).elim And.left (fun hfits => absurd hfits.2 h)

/-- An instruction that takes a value from a check, charges io and then writes, without a write to the meter, follows the
template where `blocked` names exactly the traps of the check. -/
theorem instrRule_of_io {α : Type} {i : Instr} {word : IWord} {price : CostTable → Nat} {amount : Nat}
    {blocked : State → Option TrapKind} {post : State → State → Prop} (check : State → Except TrapKind α)
    (f : State → α → State → State)
    (hword : encode i = word) (hprice : price CostTable.source = amount)
    (hexec : ∀ s, exec i s = commit s (check s >>= fun v =>
      s.chargeIo (price s.par.cost) >>= fun s1 => pure (f s v s1)))
    (hblocked : ∀ s kind, blocked s = some kind ↔ check s = .error kind)
    (hcost : ∀ s v s1, (f s v s1).cost = s1.cost)
    (hpost : ∀ s v, check s = .ok v → post s (f s v (s.addIo (price s.par.cost)))) :
    instrRule i word chargedIo price amount blocked post := by
  refine ⟨(decodeWord_eq_ok word i).2 hword, hprice, afterStep_of_exec i, fun s => ?_⟩
  rw [hexec]
  cases hcheck : check s with
  | error kind =>
    rw [(hblocked s kind).2 hcheck]
    exact ⟨fun _ h => by cases h; rfl, fun h => (nomatch h), fun h => (nomatch h)⟩
  | ok v =>
    have hfree (kind : TrapKind) : blocked s ≠ some kind := fun h => nomatch hcheck.symm.trans ((hblocked s kind).1 h)
    refine ⟨fun kind h => absurd h (hfree kind), fun _ hfull => commit_io_of_full s _ (f s v) hfull, fun _ hfits => ?_⟩
    refine ⟨_, commit_io_of_fits s _ (f s v) hfits, ?_, hpost s v hcheck⟩
    rw [chargedIo, hcost]
    exact ⟨addIo_toNat s _ hfits, rfl⟩

/-- Settles O28: WRITE has no check, and its one write beside pc is to the output sequence. -/
theorem writeRule : Obligations.WriteRule :=
  instrRule_of_io (fun _ => .ok ()) (fun s _ s1 => (s1.outWrite (s.reg 0)).advance) rfl rfl (fun _ => rfl)
    (fun _ _ => ⟨fun h => (nomatch h), fun h => (nomatch h)⟩) (fun _ _ _ => rfl)
    (fun _ _ _ => ⟨rfl, rfl, fun _ => ⟨rfl, rfl⟩, rfl⟩)

/-! ### READ -/

theorem inRead_of_mock {s : State} (hmode : s.par.inputMode = .mockZero) : s.inRead = .ok 0 := by
  rw [State.inRead, hmode]

theorem inRead_of_lt {s : State} (hmode : s.par.inputMode = .queue) (h : s.icur < s.input.length) :
    s.inRead = .ok s.input[s.icur] := by
  rw [State.inRead, hmode, List.getElem?_eq_getElem h]

/-- READ's check raises exactly where R182 and R183 say that no input is left. -/
theorem readTrap_eq_some (s : State) (kind : TrapKind) : readTrap s = some kind ↔ s.inRead = .error kind := by
  have hfree (hnot : ¬ (s.par.inputMode = .queue ∧ s.input.length + (if s.par.readOffByOne then 1 else 0) ≤ s.icur))
      {v : Word} (hok : s.inRead = .ok v) : readTrap s = some kind ↔ s.inRead = .error kind := by
    rw [readTrap, if_neg hnot, hok]
    exact ⟨fun h => (nomatch h), fun h => (nomatch h)⟩
  rcases inRead_cases s with ⟨hmode, hok⟩ | ⟨_, hlt, hok⟩ | ⟨_, hdefect, hlast, hok⟩ | ⟨hmode, hall, herr⟩
  · exact hfree (fun h => nomatch hmode.symm.trans h.1) hok
  · exact hfree (fun h => by omega) hok
  · exact hfree (fun h => by simp [hdefect, hlast] at h) hok
  · rw [readTrap, if_pos ⟨hmode, hall⟩, herr, Option.some_inj, Except.error.injEq]

/-- Settles O27: the value of `inRead` in each mode, and the cursor as READ's commit on the input side leaves it. -/
theorem readRule : Obligations.ReadRule := by
  refine instrRule_of_io State.inRead (fun _ v s1 => (s1.setReg 0 v).takeInput.advance) rfl rfl (fun _ => rfl)
    readTrap_eq_some (fun _ _ s1 => takeInput_cost _) fun s v hv => ?_
  have hreg (j : Reg) : ((((s.addIo s.par.cost.read).setReg 0 v).takeInput).advance).reg j =
      if j = 0 then v else s.reg j :=
    (reg_takeInput _ j).trans (reg_setReg (s.addIo s.par.cost.read) 0 j v)
  have hvalue {w : Word} (hw : s.inRead = .ok w) : v = w := Except.ok.inj (hv.symm.trans hw)
  refine ⟨fun hmode => ⟨?_, takeInput_icur_mock _ hmode⟩, fun hmode => takeInput_icur_queue _ hmode, fun hlt hmode => ?_,
    fun j hj => ?_, ?_, fun b => ?_, ?_⟩
  · rw [hreg, if_pos rfl, hvalue (inRead_of_mock hmode)]
  · rw [hreg, if_pos rfl, hvalue (inRead_of_lt hmode hlt)]
  · rw [hreg, if_neg hj]
  · simp
  · simp
  · rw [takeInput_only]; rfl

/-! ### The traps an instruction can raise -/

/-- An instruction that follows the template, and records no trap where it completes, records no trap but that of its own
check or CostOverflow. -/
theorem trap_of_rule {i : Instr} {word : IWord} {charged : State → State → Nat → Prop} {price : CostTable → Nat}
    {amount : Nat} {blocked : State → Option TrapKind} {post : State → State → Prop} {s t : State}
    (hrule : instrRule i word charged price amount blocked post) (hpost : post s t → t.trap = s.trap)
    (hexec : exec i s = .next t) :
    t.trap = s.trap ∨ ∃ kind, t.trap = some ⟨kind, s.pc⟩ ∧ (blocked s = some kind ∨ kind = .costOverflow) := by
  have ⟨_, _, _, hpaths⟩ := hrule
  obtain ⟨hblocked, hfull, _⟩ := hpaths s
  cases hcheck : blocked s with
  | some kind => exact .inr ⟨kind, by rw [next_unique hexec (hblocked kind hcheck), raise_trap], .inl rfl⟩
  | none =>
    by_cases hfits : s.chargeFits (price s.par.cost)
    · exact .inl (hpost (completed_of_fits hrule hexec hcheck hfits).2)
    · exact .inr ⟨_, by rw [next_unique hexec (hfull hcheck hfits), raise_trap], .inr rfl⟩

theorem trap_of_onlyPcCost {s t : State} (h : onlyPcCost s t) : t.trap = s.trap := (congrArg State.trap h :)

theorem trap_of_onlyRegsPcCost {s t : State} (h : onlyRegsPcCost s t) : t.trap = s.trap := (congrArg State.trap h :)

/-- The trap record after an instruction: as before, or one of the traps R205 and R207 give it. -/
theorem exec_trap {i : Instr} {s t : State} (h : exec i s = .next t) :
    t.trap = s.trap ∨ ∃ kind, t.trap = some ⟨kind, s.pc⟩ ∧ (checkTrap i s = some kind ∨ kind = .costOverflow) := by
  cases i with
  | read => exact trap_of_rule readRule (fun ⟨_, _, _, _, _, _, hframe⟩ => (congrArg State.trap hframe :)) h
  | write => exact trap_of_rule writeRule (fun ⟨_, _, _, hframe⟩ => (congrArg State.trap hframe :)) h
  | load a => exact trap_of_rule (loadRule a) (fun ⟨_, _, _, _, _, hframe⟩ => trap_of_onlyRegsPcCost hframe) h
  | store a => exact trap_of_rule (storeRule a) (fun ⟨_, _, hframe⟩ => (congrArg State.trap hframe :)) h
  | rload k => exact trap_of_rule (rloadRule k) (fun ⟨_, _, _, _, _, hframe⟩ => trap_of_onlyRegsPcCost hframe) h
  | rstore k => exact trap_of_rule (rstoreRule k) (fun ⟨_, _, hframe⟩ => (congrArg State.trap hframe :)) h
  | add k => exact trap_of_rule (addRule k) (fun ⟨_, _, _, _, _, hframe⟩ => trap_of_onlyRegsPcCost hframe) h
  | sub k => exact trap_of_rule (subRule k) (fun ⟨_, _, _, _, _, hframe⟩ => trap_of_onlyRegsPcCost hframe) h
  | swp k => exact trap_of_rule (swpRule k) (fun ⟨_, _, _, _, _, hframe⟩ => trap_of_onlyRegsPcCost hframe) h
  | rst k => exact trap_of_rule (rstRule k) (fun ⟨_, _, _, _, hframe⟩ => trap_of_onlyRegsPcCost hframe) h
  | inc k => exact trap_of_rule (incRule k) (fun ⟨_, _, _, _, _, hframe⟩ => trap_of_onlyRegsPcCost hframe) h
  | dec k => exact trap_of_rule (decRule k) (fun ⟨_, _, _, _, _, hframe⟩ => trap_of_onlyRegsPcCost hframe) h
  | shl k => exact trap_of_rule (shlRule k) (fun ⟨_, _, _, _, _, hframe⟩ => trap_of_onlyRegsPcCost hframe) h
  | shr k => exact trap_of_rule (shrRule k) (fun ⟨_, _, _, _, _, hframe⟩ => trap_of_onlyRegsPcCost hframe) h
  | jump p => exact trap_of_rule (jumpRule p) (fun ⟨_, hframe⟩ => trap_of_onlyPcCost hframe) h
  | jpos p => exact trap_of_rule (jposRule p) (fun ⟨_, _, hframe⟩ => trap_of_onlyPcCost hframe) h
  | jzero p => exact trap_of_rule (jzeroRule p) (fun ⟨_, _, hframe⟩ => trap_of_onlyPcCost hframe) h
  | call p => exact trap_of_rule (callRule p) (fun ⟨_, _, _, _, hframe⟩ => trap_of_onlyRegsPcCost hframe) h
  | rtrn => exact trap_of_rule rtrnRule (fun ⟨_, hframe⟩ => trap_of_onlyPcCost hframe) h
  | halt => exact .inl (next_unique h rfl ▸ halt_trap s)

/-! ### No exhaustion in mock_zero mode -/

/-- An instruction's own check finds input lacking in queue mode only (R183, R184). -/
theorem queue_of_checkTrap_inputExhausted {i : Instr} {s : State} (h : checkTrap i s = some .inputExhausted) :
    s.par.inputMode = .queue := by
  cases i with
  | read => exact (Option.ite_none_right_eq_some.1 h).1.1
  | add k | sub k | inc k | shl k => exact nomatch (Option.ite_none_right_eq_some.1 h).2
  | _ => exact nomatch h

/-- In mock_zero mode no cycle of a run without a trap record leaves InputExhausted recorded. -/
theorem cycle_trap_ne_inputExhausted {s u : State} (hmode : s.par.inputMode = .mockZero) (hnone : s.trap = none)
    (h : cycle s = .next u) (p : Word) : u.trap ≠ some ⟨.inputExhausted, p⟩ := by
  intro htrap
  rcases cycle_cases s with ⟨_, hc⟩ | ⟨_, _, _, _, hc⟩ | ⟨_, i, t, _, _, hexec, hc⟩
  · cases next_unique h hc
    exact nomatch htrap
  · cases next_unique h hc
    exact nomatch htrap
  · rw [next_unique h hc, boundCheck_eq] at htrap
    split at htrap
    · exact nomatch htrap
    · rcases exec_trap hexec with hkeep | ⟨kind, hkind, hcause⟩
      · exact nomatch (htrap.symm.trans hkeep).trans hnone
      · obtain rfl : TrapKind.inputExhausted = kind := by cases htrap.symm.trans hkind; rfl
        rcases hcause with hcheck | hcost
        · exact nomatch hmode.symm.trans (queue_of_checkTrap_inputExhausted hcheck)
        · exact nomatch hcost

/-- Settles O30: a step of a Ready run is a cycle but for the log and the count of steps. -/
theorem mockModeNeverExhausts : Obligations.MockModeNeverExhausts := by
  intro s t p hready hnone hmode hstep
  rcases step_cases s t hstep with ⟨_, u, hcycle, rfl⟩ | ⟨_, hover, _⟩
  · rw [logStep_countStep_eq]
    exact cycle_trap_ne_inputExhausted hmode hnone hcycle p
  · exact absurd hready hover

/-! ### What a step logs -/

/-- In queue mode no driver keeps a log (log entry 11). -/
theorem pushLogs_of_queue (es : List LogEntry) {s : State} (hmode : s.par.inputMode = .queue) : s.pushLogs es = s := by
  have hpush (e : LogEntry) : s.pushLog e = s := if_neg (by simp [State.keepsLog, hmode])
  induction es with
  | nil => rfl
  | cons e es ih => exact (congrArg (State.pushLogs es) (hpush e)).trans ih

/-- In mock_zero mode the entries are appended one by one, each evicting the oldest of a full log (R239). -/
theorem pushLogs_log_of_mock (es : List LogEntry) :
    ∀ s : State, s.par.inputMode = .mockZero → (s.pushLogs es).log = es.foldl (appended s.par.logCapacity) s.log := by
  induction es with
  | nil => exact fun _ _ => rfl
  | cons e es ih =>
    intro s hmode
    have hpush : (s.pushLog e).log = appended s.par.logCapacity s.log e := by
      rw [pushLog_eq]
      exact if_pos (by simp [State.keepsLog, hmode])
    calc (s.pushLogs (e :: es)).log = ((s.pushLog e).pushLogs es).log := rfl
      _ = es.foldl (appended s.par.logCapacity) (s.pushLog e).log := by
        rw [ih (s.pushLog e) (by rw [pushLog_par, hmode]), pushLog_par]
      _ = (e :: es).foldl (appended s.par.logCapacity) s.log := by rw [hpush, List.foldl_cons]

theorem trapEntry_of_not_trapped {s : State} (h : s.rs ≠ .trapped) : s.trapEntry = [] := by
  unfold State.trapEntry
  cases hrs : s.rs with
  | trapped => exact absurd hrs h
  | ready | halted => rfl

theorem trapEntry_of_trapped {s : State} {r : TrapRecord} (h : s.rs = .trapped) (hr : s.trap = some r) :
    s.trapEntry = [.trap r] := by
  simp [State.trapEntry, h, hr]

/-- The log after a step in mock_zero mode: one Write entry for each value emitted, and the trap's entry if it trapped. -/
theorem logStep_log_of_mock {s u : State} {emitted : List Word} (hmode : s.par.inputMode = .mockZero)
    (hpar : u.par = s.par) (hlog : u.log = s.log) (hout : u.out = s.out ++ emitted) :
    (State.logStep s u).log =
      u.trapEntry.foldl (appended s.par.logCapacity) ((emitted.map .write).foldl (appended s.par.logCapacity) s.log) := by
  have hentries : stepEntries s u = emitted.map .write ++ u.trapEntry := by
    rw [stepEntries, hout, List.drop_left]
  rw [State.logStep, hentries, pushLogs_log_of_mock _ u (by rw [hpar, hmode]), hpar, hlog, List.foldl_append]

theorem logStep_log_of_not_trapped {s u : State} {emitted : List Word} (hmode : s.par.inputMode = .mockZero)
    (hpar : u.par = s.par) (hlog : u.log = s.log) (hout : u.out = s.out ++ emitted) (hrs : u.rs ≠ .trapped) :
    (State.logStep s u).log = (emitted.map .write).foldl (appended s.par.logCapacity) s.log := by
  rw [logStep_log_of_mock hmode hpar hlog hout, trapEntry_of_not_trapped hrs, List.foldl_nil]

theorem logStep_log_of_trapped {s u : State} {emitted : List Word} {r : TrapRecord}
    (hmode : s.par.inputMode = .mockZero) (hpar : u.par = s.par) (hlog : u.log = s.log)
    (hout : u.out = s.out ++ emitted) (hrs : u.rs = .trapped) (hr : u.trap = some r) :
    (State.logStep s u).log =
      appended s.par.logCapacity ((emitted.map .write).foldl (appended s.par.logCapacity) s.log) (.trap r) := by
  rw [logStep_log_of_mock hmode hpar hlog hout, trapEntry_of_trapped hrs hr, List.foldl_cons, List.foldl_nil]

/-- Only WRITE emits, one value, and that is x[0] (R187). -/
theorem effect_out {s t : State} (h : Effect s t) : t.out = s.out ∨ t.out = s.out ++ [s.reg 0] := by
  cases h with
  | output c _ => exact .inr rfl
  | _ => exact .inl (by simp)

/-- What a cycle of a Ready run leaves for the log to see: log and parameters as they were, at most x[0] emitted, and a
trap record where it trapped. -/
theorem cycle_observed {s u : State} (hready : s.rs = .ready) (h : cycle s = .next u) :
    u.log = s.log ∧ u.par = s.par ∧ (u.out = s.out ∨ u.out = s.out ++ [s.reg 0]) ∧
      (u.rs = .trapped → ∃ r, u.trap = some r) := by
  rcases cycle_effect h with ⟨kind, rfl⟩ | ⟨v, hv, rfl⟩
  · exact ⟨rfl, rfl, .inl rfl, fun _ => ⟨_, rfl⟩⟩
  · have hlog : v.log = s.log := (congrArg State.log (effect_frame hv) :)
    have hpar : v.par = s.par := (congrArg State.par (effect_frame hv) :)
    refine ⟨by rw [boundCheck_log, hlog], by rw [boundCheck_par, hpar], by rw [boundCheck_out]; exact effect_out hv, ?_⟩
    rw [boundCheck_eq]
    split
    · exact fun _ => ⟨_, rfl⟩
    · intro htrapped
      rcases (effect_trap_rs hv).2 with hrs | hrs
      · exact nomatch (htrapped.symm.trans hrs).trans hready
      · exact nomatch htrapped.symm.trans hrs

/-- A step that can run is one cycle, then the log and the count. -/
theorem cycle_of_step {s t : State} (hcan : s.canStep) (h : step s = .next t) :
    ∃ u, cycle s = .next u ∧ t = { u with log := (State.logStep s u).log, steps := u.steps + 1 } := by
  rw [step_of_canStep s hcan, mapNext_eq_next] at h
  obtain ⟨u, hcycle, rfl⟩ := h
  exact ⟨u, hcycle, logStep_countStep_eq s u⟩

/-! ### The step that runs WRITE -/

/-- The state after WRITE where the charge fits. -/
def afterWrite (s : State) : State :=
  ((s.addIo s.par.cost.write).outWrite (s.reg 0)).advance

theorem exec_write_of_fits {s : State} (hfits : s.chargeFits s.par.cost.write) :
    exec .write s = .next (afterWrite s) :=
  commit_io_of_fits s _ _ hfits

theorem inBounds_of_runs {s : State} {i : Instr} (hruns : s.runs i) : s.inBounds := by
  obtain ⟨_, e, hfetch, _⟩ := hruns
  exact (fetch_isSome s).1 ⟨e, hfetch⟩

theorem boundCheck_of_inBounds {s : State} (h : s.inBounds) : s.boundCheck = s :=
  if_neg fun hc => hc.2 h

theorem boundCheck_of_outside {s : State} (hready : s.rs = .ready) (h : ¬ s.inBounds) :
    s.boundCheck = raise .outOfBounds s.pc s :=
  if_pos ⟨hready, h⟩

/-- After a WRITE that runs, pc is in range exactly where there is an entry after it (R25). -/
theorem afterWrite_inBounds {s : State} (hruns : s.runs .write) (hlen : s.prog.length ≤ programMax) :
    (afterWrite s).inBounds ↔ s.pc.toInt + 1 < s.prog.length := by
  have hin : s.inBounds := inBounds_of_runs hruns
  have hexact : (s.pc + 1).toInt = s.pc.toInt + 1 := pc_add_one_toInt s hin hlen
  change 0 ≤ (s.pc + 1).toInt ∧ (s.pc + 1).toInt < s.prog.length ↔ _
  rw [hexact]
  exact ⟨And.right, fun hnext => ⟨Int.add_nonneg hin.1 Int.one_nonneg, hnext⟩⟩

/-- The step that runs WRITE with an entry after it. -/
theorem step_write_in_range {s : State} (hruns : s.runs .write) (hmode : s.par.inputMode = .mockZero)
    (hfits : s.chargeFits s.par.cost.write) (hlen : s.prog.length ≤ programMax)
    (hnext : s.pc.toInt + 1 < s.prog.length) :
    ∃ u, step s = .next u ∧ u.rs = .ready ∧ u.x = s.x ∧
      u.log = appended s.par.logCapacity s.log (.write (s.reg 0)) := by
  have ⟨⟨_, hready, _⟩, _⟩ := hruns
  have hstep := step_of_runs hruns (exec_write_of_fits hfits)
  rw [boundCheck_of_inBounds ((afterWrite_inBounds hruns hlen).2 hnext), logStep_countStep_eq] at hstep
  have hgoes : (afterWrite s).rs ≠ .trapped := fun h => nomatch hready.symm.trans h
  exact ⟨_, hstep, hready, rfl, logStep_log_of_not_trapped (emitted := [s.reg 0]) hmode rfl rfl rfl hgoes⟩

/-- The step that runs WRITE at the last index: the emitted value stays, and the trap is logged after it (R203). -/
theorem step_write_at_last {s : State} (hruns : s.runs .write) (hmode : s.par.inputMode = .mockZero)
    (hfits : s.chargeFits s.par.cost.write) (hlen : s.prog.length ≤ programMax)
    (hlast : s.pc.toInt + 1 = s.prog.length) :
    ∃ u, step s = .next u ∧ u.rs = .trapped ∧ u.trap = some ⟨.outOfBounds, s.pc + 1⟩ ∧ u.x = s.x ∧
      u.out = s.out ++ [s.reg 0] ∧
      u.log = appended s.par.logCapacity (appended s.par.logCapacity s.log (.write (s.reg 0)))
        (.trap ⟨.outOfBounds, s.pc + 1⟩) := by
  have ⟨⟨_, hready, _⟩, _⟩ := hruns
  have houtside : ¬ (afterWrite s).inBounds := fun h => absurd ((afterWrite_inBounds hruns hlen).1 h) hlast.not_lt
  have hstep := step_of_runs hruns (exec_write_of_fits hfits)
  rw [boundCheck_of_outside (s := afterWrite s) hready houtside, logStep_countStep_eq] at hstep
  exact ⟨_, hstep, rfl, rfl, rfl, rfl, logStep_log_of_trapped (emitted := [s.reg 0]) hmode rfl rfl rfl rfl rfl⟩

/-- Settles O29: the step that runs WRITE by its own rule; for any step, what its cycle emitted and whether it trapped. -/
theorem stepLogsWritesAndTraps : Obligations.StepLogsWritesAndTraps := by
  refine ⟨fun s hruns hmode hfits hlen => ⟨step_write_in_range hruns hmode hfits hlen,
    step_write_at_last hruns hmode hfits hlen⟩, fun s t hcan hstep => ?_⟩
  obtain ⟨u, hcycle, rfl⟩ := cycle_of_step hcan hstep
  have ⟨_, hready, _⟩ := hcan
  obtain ⟨hlog, hpar, hout, hrecord⟩ := cycle_observed hready hcycle
  have hnone (hsilent : u.out = s.out) : u.out = s.out ++ [] := hsilent.trans (List.append_nil _).symm
  refine ⟨fun hmode => ?_, fun hmode hsilent hrs => ?_, fun hmode hsilent hrs => ?_, ?_⟩
  · exact (congrArg State.log (pushLogs_of_queue _ (by rw [hpar, hmode]))).trans hlog
  · exact logStep_log_of_not_trapped hmode hpar hlog (hnone hsilent) hrs
  · obtain ⟨r, hr⟩ := hrecord hrs
    exact ⟨r, hr, logStep_log_of_trapped hmode hpar hlog (hnone hsilent) hrs hr⟩
  · rcases hout with hsilent | hemits
    · exact .inl hsilent
    · refine .inr ⟨hemits, fun hmode hrs => logStep_log_of_not_trapped hmode hpar hlog hemits hrs, fun hmode hrs => ?_⟩
      obtain ⟨r, hr⟩ := hrecord hrs
      exact ⟨r, hr, logStep_log_of_trapped hmode hpar hlog hemits hrs hr⟩

end Sys2Proof.Proofs
end

section
/-! PROOFS. Traps and the step cycle (60_exceptions.md sections 1 and 2): every instruction against the order of R207, said
once at the instruction and once at the cycle, then which trap a step takes and what it leaves. -/

namespace Sys2Proof.Proofs

open Sys2Proof.Machine Sys2Proof.Statements

/-! ### The traps of one instruction, in the order of R207 -/

/-- The trap an instruction takes before any write, if it does: that of its own check, else CostOverflow. HALT makes no
charge (R100). -/
def instrTrap (i : Instr) (s : State) : Option TrapKind :=
  (checkTrap i s).or (if i ≠ .halt ∧ ¬ s.chargeFits (tabulated i s.par.cost) then some .costOverflow else none)

theorem instrTrap_eq_some {i : Instr} {s : State} {kind : TrapKind} :
    instrTrap i s = some kind ↔
      checkTrap i s = some kind ∨
        checkTrap i s = none ∧ i ≠ .halt ∧ ¬ s.chargeFits (tabulated i s.par.cost) ∧ kind = .costOverflow := by
  simp only [instrTrap, Option.or_eq_some_iff, Option.ite_none_right_eq_some, Option.some_inj, and_assoc,
    eq_comm (a := TrapKind.costOverflow)]

theorem instrTrap_eq_none {i : Instr} {s : State} :
    instrTrap i s = none ↔ checkTrap i s = none ∧ (i ≠ .halt → s.chargeFits (tabulated i s.par.cost)) := by
  simp only [instrTrap, Option.or_eq_none_iff, ite_eq_right_iff, reduceCtorEq, imp_false, not_and, not_not]

/-- Every instruction but HALT follows the template with its own check and its tabulated cost, charges one of the two
counters, and where it completes leaves the run state as it was. -/
theorem instrRule_of_ne_halt {i : Instr} (h : i ≠ .halt) :
    ∃ word charged amount post, instrRule i word charged (tabulated i) amount (checkTrap i) post ∧
      (charged = chargedCompute ∨ charged = chargedIo) ∧ ∀ s t, post s t → t.rs = s.rs := by
  cases i with
  | read => exact ⟨_, _, _, _, readRule, .inr rfl, fun _ _ ⟨_, _, _, _, _, _, hframe⟩ => (congrArg State.rs hframe :)⟩
  | write => exact ⟨_, _, _, _, writeRule, .inr rfl, fun _ _ ⟨_, _, _, hframe⟩ => (congrArg State.rs hframe :)⟩
  | load a => exact ⟨_, _, _, _, loadRule a, .inl rfl, fun _ _ ⟨_, _, _, _, _, hframe⟩ => (congrArg State.rs hframe :)⟩
  | store a => exact ⟨_, _, _, _, storeRule a, .inl rfl, fun _ _ ⟨_, _, hframe⟩ => (congrArg State.rs hframe :)⟩
  | rload k => exact ⟨_, _, _, _, rloadRule k, .inl rfl, fun _ _ ⟨_, _, _, _, _, hframe⟩ => (congrArg State.rs hframe :)⟩
  | rstore k => exact ⟨_, _, _, _, rstoreRule k, .inl rfl, fun _ _ ⟨_, _, hframe⟩ => (congrArg State.rs hframe :)⟩
  | add k => exact ⟨_, _, _, _, addRule k, .inl rfl, fun _ _ ⟨_, _, _, _, _, hframe⟩ => (congrArg State.rs hframe :)⟩
  | sub k => exact ⟨_, _, _, _, subRule k, .inl rfl, fun _ _ ⟨_, _, _, _, _, hframe⟩ => (congrArg State.rs hframe :)⟩
  | swp k => exact ⟨_, _, _, _, swpRule k, .inl rfl, fun _ _ ⟨_, _, _, _, _, hframe⟩ => (congrArg State.rs hframe :)⟩
  | rst k => exact ⟨_, _, _, _, rstRule k, .inl rfl, fun _ _ ⟨_, _, _, _, hframe⟩ => (congrArg State.rs hframe :)⟩
  | inc k => exact ⟨_, _, _, _, incRule k, .inl rfl, fun _ _ ⟨_, _, _, _, _, hframe⟩ => (congrArg State.rs hframe :)⟩
  | dec k => exact ⟨_, _, _, _, decRule k, .inl rfl, fun _ _ ⟨_, _, _, _, _, hframe⟩ => (congrArg State.rs hframe :)⟩
  | shl k => exact ⟨_, _, _, _, shlRule k, .inl rfl, fun _ _ ⟨_, _, _, _, _, hframe⟩ => (congrArg State.rs hframe :)⟩
  | shr k => exact ⟨_, _, _, _, shrRule k, .inl rfl, fun _ _ ⟨_, _, _, _, _, hframe⟩ => (congrArg State.rs hframe :)⟩
  | jump p => exact ⟨_, _, _, _, jumpRule p, .inl rfl, fun _ _ ⟨_, hframe⟩ => (congrArg State.rs hframe :)⟩
  | jpos p => exact ⟨_, _, _, _, jposRule p, .inl rfl, fun _ _ ⟨_, _, hframe⟩ => (congrArg State.rs hframe :)⟩
  | jzero p => exact ⟨_, _, _, _, jzeroRule p, .inl rfl, fun _ _ ⟨_, _, hframe⟩ => (congrArg State.rs hframe :)⟩
  | call p => exact ⟨_, _, _, _, callRule p, .inl rfl, fun _ _ ⟨_, _, _, _, hframe⟩ => (congrArg State.rs hframe :)⟩
  | rtrn => exact ⟨_, _, _, _, rtrnRule, .inl rfl, fun _ _ ⟨_, hframe⟩ => (congrArg State.rs hframe :)⟩
  | halt => exact absurd rfl h

/-- HALT has no check of its own (R100). -/
theorem ne_halt_of_checkTrap {i : Instr} {s : State} {kind : TrapKind} (h : checkTrap i s = some kind) : i ≠ .halt := by
  rintro rfl
  exact nomatch h

/-- A charge on either counter grows the reported cost by its amount (R26). -/
theorem total_of_charged {charged : State → State → Nat → Prop} (h : charged = chargedCompute ∨ charged = chargedIo)
    {s t : State} {c : Nat} (hcharged : charged s t c) : t.cost.total = s.cost.total + c := by
  simp only [CostMeter.total]
  rcases h with rfl | rfl
  all_goals
    obtain ⟨hgrow, hsame⟩ := hcharged
    rw [hgrow, hsame]
    omega

/-- Where an instruction has a trap to take, it takes it at its own index with no other effect (R204). -/
theorem exec_of_instrTrap {i : Instr} {s : State} {kind : TrapKind} (h : instrTrap i s = some kind) :
    exec i s = .next (raise kind s.pc s) := by
  rcases instrTrap_eq_some.1 h with hcheck | ⟨hfree, hhalt, hfull, rfl⟩
  · obtain ⟨_, _, _, _, ⟨_, _, _, hpaths⟩, _⟩ := instrRule_of_ne_halt (ne_halt_of_checkTrap hcheck)
    obtain ⟨hblocked, _, _⟩ := hpaths s
    exact hblocked kind hcheck
  · obtain ⟨_, _, _, _, ⟨_, _, _, hpaths⟩, _⟩ := instrRule_of_ne_halt hhalt
    obtain ⟨_, hcost, _⟩ := hpaths s
    exact hcost hfree hfull

/-- Where it has none, it completes: untrapped if the run was, and charged its tabulated cost (R26). -/
theorem exec_of_no_instrTrap {i : Instr} {s : State} (h : instrTrap i s = none) :
    ∃ t, exec i s = .next t ∧ (t.rs = s.rs ∨ t.rs = .halted) ∧
      t.cost.total = s.cost.total + tabulated i s.par.cost := by
  obtain ⟨hfree, hfits⟩ := instrTrap_eq_none.1 h
  by_cases hhalt : i = .halt
  · subst hhalt
    exact ⟨s.halt, rfl, .inr rfl, rfl⟩
  · obtain ⟨_, _, _, _, ⟨_, _, _, hpaths⟩, hcounter, hrs⟩ := instrRule_of_ne_halt hhalt
    obtain ⟨_, _, hcompletes⟩ := hpaths s
    obtain ⟨t, hexec, hcharged, hpost⟩ := hcompletes hfree (hfits hhalt)
    exact ⟨t, hexec, .inl (hrs s t hpost), total_of_charged hcounter hcharged⟩

/-- The traps of an instruction's own check, as R205 tabulates them. -/
theorem checkTrap_kind {i : Instr} {s : State} {kind : TrapKind} (h : checkTrap i s = some kind) :
    (kind = .inputExhausted ∧ i = .read) ∨
      (kind = .arithmeticOverflow ∧ s.par.overflowMode = .fault ∧
        ∃ k, i = .add k ∨ i = .sub k ∨ i = .inc k ∨ i = .shl k) := by
  cases i with
  | read => exact .inl ⟨(Option.some.inj (Option.ite_none_right_eq_some.1 h).2).symm, rfl⟩
  | add k | sub k | inc k | shl k =>
    obtain ⟨⟨hmode, _⟩, hkind⟩ := Option.ite_none_right_eq_some.1 h
    exact .inr ⟨(Option.some.inj hkind).symm, hmode, k, by simp⟩
  | _ => exact nomatch h

/-- Settles O39: an instruction without a trap to take leaves a Ready run Ready or Halted; one with a trap takes it. -/
theorem trapKindsByInstruction : Obligations.TrapKindsByInstruction := by
  intro i s t hready hexec htrapped
  cases htrap : instrTrap i s with
  | none =>
    obtain ⟨u, hu, hrs, _⟩ := exec_of_no_instrTrap htrap
    cases next_unique hexec hu
    simp [htrapped, hready] at hrs
  | some kind =>
    cases next_unique hexec (exec_of_instrTrap htrap)
    rcases instrTrap_eq_some.1 htrap with hcheck | ⟨_, hhalt, _, hcost⟩
    · exact ⟨ne_halt_of_checkTrap hcheck, kind, rfl, .inr (checkTrap_kind hcheck)⟩
    · exact ⟨hhalt, kind, rfl, .inl hcost⟩

/-- Settles O40: a trap and an effect are both next states. -/
theorem execAlwaysAnswersNext : Obligations.ExecAlwaysAnswersNext := by
  intro i s
  rcases exec_effect i s with ⟨kind, htrap⟩ | ⟨t, hexec, _⟩
  · exact ⟨_, htrap⟩
  · exact ⟨t, hexec⟩

/-! ### The traps of one cycle -/

theorem firstTrap_of_fetch_none {s : State} (h : s.fetch = none) : firstTrap s = some .outOfBounds := by
  simp only [firstTrap, h]

theorem firstTrap_of_illegal {s : State} {e : ProgEntry} {why : IllegalReason} (h : s.fetch = some e)
    (hd : e.decode = .illegal why) : firstTrap s = some .illegalInstruction := by
  simp only [firstTrap, h, hd]

theorem firstTrap_of_decoded {s : State} {e : ProgEntry} {i : Instr} (h : s.fetch = some e) (hd : e.decode = .ok i) :
    firstTrap s = instrTrap i s := by
  simp only [firstTrap, instrTrap, h, hd]
  cases checkTrap i s <;> rfl

/-- A cycle with a first trap in the order of R207 takes that trap with no other effect. -/
theorem cycle_of_firstTrap {s : State} {kind : TrapKind} (h : firstTrap s = some kind) :
    cycle s = .next (raise kind s.pc s) := by
  rcases cycle_cases s with ⟨hf, hc⟩ | ⟨e, why, hf, hd, hc⟩ | ⟨e, i, t, hf, hd, hexec, hc⟩
  · rw [firstTrap_of_fetch_none hf] at h
    cases h
    exact hc
  · rw [firstTrap_of_illegal hf hd] at h
    cases h
    exact hc
  · rw [firstTrap_of_decoded hf hd] at h
    cases next_unique hexec (exec_of_instrTrap h)
    rw [hc, boundCheck_eq, if_neg (by simp)]

/-- A cycle without one runs the instruction at pc to its completion, and then the bound check. -/
theorem cycle_of_no_firstTrap {s : State} (h : firstTrap s = none) :
    ∃ e i t, s.fetch = some e ∧ e.decode = .ok i ∧ exec i s = .next t ∧ cycle s = .next t.boundCheck ∧
      (t.rs = s.rs ∨ t.rs = .halted) ∧ t.cost.total = s.cost.total + tabulated i s.par.cost := by
  rcases cycle_cases s with ⟨hf, _⟩ | ⟨e, why, hf, hd, _⟩ | ⟨e, i, t, hf, hd, hexec, hc⟩
  · exact nomatch (firstTrap_of_fetch_none hf).symm.trans h
  · exact nomatch (firstTrap_of_illegal hf hd).symm.trans h
  · rw [firstTrap_of_decoded hf hd] at h
    obtain ⟨u, hu, hrs, htotal⟩ := exec_of_no_instrTrap h
    cases next_unique hexec hu
    exact ⟨e, i, t, hf, hd, hexec, hc, hrs, htotal⟩

/-! ### The step -/

/-- A step that can run ends with the core as its cycle leaves it. -/
theorem step_core_of_cycle {s u : State} (hcan : s.canStep) (h : cycle s = .next u) :
    ∃ t, step s = .next t ∧ t.core = u.core :=
  ⟨_, by rw [step_of_canStep s hcan, h, mapNext_next], core_logStep_countStep s u⟩

/-- Settles O37: the cycle's two cases, the second with the step around an instruction (R203). -/
theorem trapPriorityAndPrecision : Obligations.TrapPriorityAndPrecision := by
  intro s hcan
  have ⟨_, hready, _⟩ := hcan
  refine ⟨fun kind h => step_core_of_cycle hcan (cycle_of_firstTrap h), fun h => ?_⟩
  obtain ⟨e, i, t, hf, hd, hexec, _, hrs, _⟩ := cycle_of_no_firstTrap h
  have hruns : s.runs i := ⟨hcan, e, hf, hd⟩
  have huntrapped : t.rs ≠ .trapped := by rcases hrs with hrs | hrs <;> simp [hrs, hready]
  obtain ⟨u, hstep, hcore⟩ := afterStep_of_exec i s t hruns hexec
  exact ⟨i, t, u, hruns, hexec, huntrapped, hstep, hcore⟩

/-- Settles O38: the first two traps of the order of R207. -/
theorem fetchTraps : Obligations.FetchTraps := by
  intro s hcan
  refine ⟨fun hout => ?_, fun e why hf hd => ?_⟩
  · exact step_core_of_cycle hcan (cycle_of_firstTrap (firstTrap_of_fetch_none ((fetch_eq_none s).2 hout)))
  · exact step_core_of_cycle hcan (cycle_of_firstTrap (firstTrap_of_illegal hf hd))

/-- Settles O36: the rule of the step around an instruction, which every rule of an instruction already holds. -/
theorem boundCheckAfterStep : Obligations.BoundCheckAfterStep :=
  afterStep_of_exec

/-- Settles O35: the instruction answers a next state, and the step's parts are applied to that in turn. -/
theorem stepRunsDecoded : Obligations.StepRunsDecoded := by
  intro s e i hcan hf hd _
  obtain ⟨t, hexec⟩ := execAlwaysAnswersNext i s
  rw [step_of_runs ⟨hcan, e, hf, hd⟩ hexec, hexec, mapNext_next]

end Sys2Proof.Proofs
end

section
/-! PROOFS. The host interface (60_exceptions.md section 4, without the batch): refused steps, quit, unknown commands, the
step ceiling, the result of a trapped run, and the invariant under every command. -/

namespace Sys2Proof.Proofs

open Sys2Proof.Machine Sys2Proof.Statements

/-! ### Commands that only log -/

/-- What logging one entry does in either mode (R239; log entry 11). -/
theorem pushLog_only_log (e : LogEntry) (s : State) :
    s.pushLog e = { s with log := (s.pushLog e).log } ∧
      (s.par.inputMode = .mockZero → (s.pushLog e).log = appended s.par.logCapacity s.log e) ∧
      (s.par.inputMode = .queue → (s.pushLog e).log = s.log) :=
  ⟨by rw [pushLog_eq], pushLogs_log_of_mock [e] s, fun hmode => congrArg State.log (pushLogs_of_queue [e] hmode)⟩

/-- A command in an open session is carried out (R236). -/
theorem whileInSession_open (command : State → Host.Outcome State Fault Refusal) {s : State} (h : s.ended = false) :
    whileInSession command s = command s := by
  rw [whileInSession, if_neg (by simp [h])]

/-- A command in a session that has ended is refused by name (R241). -/
theorem whileInSession_ended (command : State → Host.Outcome State Fault Refusal) {s : State} (h : s.ended = true) :
    whileInSession command s = .refused .sessionEnded :=
  if_pos h

/-- A command of a session answers a next state exactly where it does so in a session that is open. -/
theorem whileInSession_eq_next (command : State → Host.Outcome State Fault Refusal) (s t : State) :
    whileInSession command s = .next t ↔ s.ended = false ∧ command s = .next t := by
  cases hended : s.ended with
  | false => rw [whileInSession_open command hended, eq_self, true_and]
  | true =>
    rw [whileInSession_ended command hended]
    exact ⟨fun h => (nomatch h), fun h => (nomatch h.1)⟩

theorem quit_eq_next (s t : State) : hostCommand .quit s = .next t ↔ s.ended = false ∧ t = s.endSession := by
  simp only [hostCommand, whileInSession_eq_next, Host.Outcome.next.injEq, eq_comm (a := t)]

theorem unknown_eq_next (cmd : String) (s t : State) :
    hostCommand (.other cmd) s = .next t ↔ s.ended = false ∧ t = s.pushLog (.unknown cmd) := by
  simp only [hostCommand, whileInSession_eq_next, Host.Outcome.next.injEq, eq_comm (a := t)]

/-- Settles O53: such a step logs one Refused entry. -/
theorem stepWhenOverIsRefused : Obligations.StepWhenOverIsRefused :=
  fun s hended hover => ⟨_, step_of_over s hended hover, pushLog_only_log .refused s⟩

/-- Settles O55: such a command logs one Unknown entry. -/
theorem unknownCommandLogged : Obligations.UnknownCommandLogged :=
  fun s cmd hended => ⟨_, (unknown_eq_next cmd s _).2 ⟨hended, rfl⟩, pushLog_only_log (.unknown cmd) s⟩

/-- Settles O54: every command of a session is accepted only while it is open. -/
theorem quitEndsSession : Obligations.QuitEndsSession := by
  intro s cmd hended
  have hrefused (command : State → Host.Outcome State Fault Refusal) :
      whileInSession command s.endSession = .refused .sessionEnded := whileInSession_ended command rfl
  exact ⟨_, (quit_eq_next s _).2 ⟨hended, rfl⟩, rfl, hrefused stepCommand, hrefused fun t => .next t.endSession,
    hrefused fun t => .next (t.pushLog (.unknown cmd))⟩

/-! ### The step ceiling -/

theorem ceilingReached_iff (s : State) :
    s.ceilingReached = true ↔ ∃ ceiling, s.par.stepCeiling = some ceiling ∧ ceiling ≤ s.steps := by
  unfold State.ceilingReached
  cases s.par.stepCeiling <;> simp

/-- At the ceiling a Ready run is stepped no more (R243; log entry 10). -/
theorem step_of_ceiling {s : State} (hended : s.ended = false) (hready : s.rs = .ready)
    (hceiling : s.ceilingReached = true) : step s = .refused .stepCeiling := by
  rw [step, whileInSession_open _ hended]
  simp only [stepCommand, hready, hceiling, if_true]

/-- A cycle answers a next state always, and leaves the count of steps to the session. -/
theorem cycle_answers (s : State) : ∃ u, cycle s = .next u ∧ u.steps = s.steps := by
  have answered {u : State} (hc : cycle s = .next u) : u.steps = s.steps := by
    rcases cycle_effect hc with ⟨kind, rfl⟩ | ⟨v, hv, rfl⟩
    · rfl
    · rw [boundCheck_steps]
      exact (congrArg State.steps (effect_frame hv) :)
  rcases cycle_cases s with ⟨_, hc⟩ | ⟨_, _, _, _, hc⟩ | ⟨_, _, _, _, _, _, hc⟩ <;> exact ⟨_, hc, answered hc⟩

/-- A step that can run is made and counted (R243). -/
theorem step_counts {s : State} (hcan : s.canStep) : ∃ t, step s = .next t ∧ t.steps = s.steps + 1 := by
  obtain ⟨u, hcycle, hsteps⟩ := cycle_answers s
  refine ⟨_, by rw [step_of_canStep s hcan, hcycle, mapNext_next], ?_⟩
  rw [logStep_countStep_eq]
  exact congrArg (· + 1) hsteps

/-- Settles O56: the two premises say that the ceiling is reached and that it is not. -/
theorem stepCeilingStops : Obligations.StepCeilingStops := by
  intro s hended hready
  refine ⟨fun ceiling hsome hle => ?_, fun hbelow => ?_⟩
  · have hceiling : s.ceilingReached = true := (ceilingReached_iff s).2 ⟨ceiling, hsome, hle⟩
    exact ⟨step_of_ceiling hended hready hceiling, by simp only [State.batchResult, hready, hceiling, if_true]⟩
  · have hceiling : s.ceilingReached ≠ true := fun h => by
      obtain ⟨ceiling, hsome, hle⟩ := (ceilingReached_iff s).1 h
      exact absurd hle (hbelow ceiling hsome).not_ge
    have hcan : s.canStep := ⟨hended, hready, Bool.eq_false_iff.2 hceiling⟩
    exact ⟨batchResult_of_canStep s hcan, step_counts hcan⟩

/-! ### The invariant and the result of a trapped run -/

/-- The state a reset leaves has the invariant, for a program within R7's bound. -/
theorem inv_resetWith (prog : List ProgEntry) (input : List Word) (init : Vector Word 8) (par : Params) (draws : Nat)
    (h : prog.length ≤ programMax) : State.Inv { State.resetWith prog input init par with draws := draws } :=
  ⟨Memory.nil_wf, ⟨fun h => (nomatch h), fun h => (nomatch h)⟩, Nat.zero_le _, Nat.zero_le _, Nat.zero_le _, h⟩

/-- Logging one entry keeps the invariant: a log within its capacity stays so (R239). -/
theorem inv_pushLog (e : LogEntry) {s : State} (h : s.Inv) : (s.pushLog e).Inv := by
  obtain ⟨hmem, htrap, hcost, hcur, hlog, hprog⟩ := h
  have hlog' := pushLogs_length [e] s hlog
  rw [(pushLog_only_log e s).1]
  exact ⟨hmem, htrap, hcost, hcur, hlog', hprog⟩

/-- Settles O60: a reset establishes the invariant, a step keeps it, and the other commands touch the log and the
session only. -/
theorem hostCommandKeepsInvariant : Obligations.HostCommandKeepsInvariant := by
  intro c s t hinv h
  cases c with
  | reset prog mode input init =>
    obtain ⟨hlen, rfl⟩ := (hostReset_eq_next prog mode input init s t).1 h
    exact inv_resetWith prog input init _ s.draws hlen
  | step => exact stepKeepsInvariant s t hinv h
  | quit =>
    obtain ⟨_, rfl⟩ := (quit_eq_next s t).1 h
    exact hinv
  | other cmd =>
    obtain ⟨_, rfl⟩ := (unknown_eq_next cmd s t).1 h
    exact inv_pushLog (.unknown cmd) hinv

/-- Settles O57: the state after the step has the invariant, so its trap record is there (R31). -/
theorem trappedResultRule : Obligations.TrappedResultRule := by
  intro s u hinv hstep htrapped
  obtain ⟨_, hconsistent, _⟩ := stepKeepsInvariant s u hinv hstep
  obtain ⟨r, hr⟩ := Option.isSome_iff_exists.1 (hconsistent.2 htrapped)
  exact ⟨r, hr, by simp only [State.batchResult, htrapped, hr]⟩

end Sys2Proof.Proofs
end

section
/-! PROOFS. The cost of a run along its path (60_exceptions.md R233): a step that does not trap adds the tabulated cost of
the instruction it executes, and a run that halts has not trapped on the way. -/

namespace Sys2Proof.Proofs

open Sys2Proof.Machine Sys2Proof.Statements

/-! ### What every step keeps, a run keeps -/

theorem run_keeps {P : State → Prop} (hstep : ∀ s t, P s → step s = .next t → P t) :
    ∀ (n : Nat) (s t : State), P s → Host.Core.run core n s = .next t → P t := by
  intro n
  induction n with
  | zero =>
    intro s t hs hrun
    exact next_unique (o := .next s) rfl hrun ▸ hs
  | succ n ih =>
    intro s t hs hrun
    obtain ⟨u, hu, hrest⟩ := (run_succ_eq_next n s t).1 hrun
    exact ih u t (hstep s u hs hu) hrest

/-- A trapped run stays trapped (R210). -/
theorem step_keeps_trapped (s t : State) (h : s.rs = .trapped) (hstep : step s = .next t) : t.rs = .trapped := by
  rcases step_cases s t hstep with ⟨⟨_, hready, _⟩, _⟩ | ⟨_, _, rfl⟩
  · exact nomatch hready.symm.trans h
  · rw [pushLog_rs, h]

/-- `compute + io` stays within a `U64`, also where the rest of the invariant is not given (R27). -/
theorem step_keeps_costFits (s t : State) (h : s.costFits) (hstep : step s = .next t) : t.costFits := by
  obtain ⟨u, ht, _, hu⟩ := step_effect hstep
  rw [ht]
  rcases hu with ⟨_, kind, rfl⟩ | ⟨_, v, hv, rfl⟩ | ⟨_, rfl⟩
  · exact h
  · simpa only [State.costFits, boundCheck_cost] using effect_costFits hv h
  · exact h

/-! ### The cost of a step and of a path -/

theorem stepCost_of_decoded {s : State} {e : ProgEntry} {i : Instr} (hready : s.rs = .ready) (hf : s.fetch = some e)
    (hd : e.decode = .ok i) : stepCost s = tabulated i s.par.cost := by
  simp only [stepCost, hready, hf, Option.map_some, hd]

theorem stepCost_of_over {s : State} (h : s.rs ≠ .ready) : stepCost s = 0 := by
  unfold stepCost
  cases hrs : s.rs with
  | ready => exact absurd hrs h
  | halted | trapped => rfl

theorem pathCost_succ {s u : State} (n : Nat) (h : step s = .next u) :
    pathCost (n + 1) s = stepCost s + pathCost n u := by
  simp only [pathCost, h]

/-- A step that does not trap adds the tabulated cost of the instruction it executes, 0 where the run is over. -/
theorem step_total {s t : State} (hstep : step s = .next t) (huntrapped : t.rs ≠ .trapped) :
    t.cost.total = s.cost.total + stepCost s := by
  rcases step_cases s t hstep with ⟨⟨_, hready, _⟩, u, hcycle, rfl⟩ | ⟨_, hover, rfl⟩
  · rw [logStep_countStep_eq] at huntrapped ⊢
    cases htrap : firstTrap s with
    | some kind =>
      cases next_unique hcycle (cycle_of_firstTrap htrap)
      exact absurd rfl huntrapped
    | none =>
      obtain ⟨e, i, v, hf, hd, _, hc, _, htotal⟩ := cycle_of_no_firstTrap htrap
      cases next_unique hcycle hc
      rw [stepCost_of_decoded hready hf hd, ← htotal]
      exact congrArg CostMeter.total (boundCheck_cost v)
  · rw [pushLog_cost, stepCost_of_over hover, Nat.add_zero]

/-- A run that ends untrapped has added the cost of its path. -/
theorem run_total {t : State} (huntrapped : t.rs ≠ .trapped) (n : Nat) :
    ∀ s : State, Host.Core.run core n s = .next t → t.cost.total = s.cost.total + pathCost n s := by
  induction n with
  | zero =>
    intro s hrun
    cases next_unique (o := .next s) rfl hrun
    rfl
  | succ n ih =>
    intro s hrun
    obtain ⟨u, hu, hrest⟩ := (run_succ_eq_next n s t).1 hrun
    have hu_untrapped : u.rs ≠ .trapped := fun h => huntrapped (run_keeps step_keeps_trapped n u t h hrest)
    rw [ih u hrest, step_total hu hu_untrapped, pathCost_succ n hu, Nat.add_assoc]

/-- The reported cost is exact where it fits a `U64`. -/
theorem toNat_compute_add_io {s : State} (h : s.costFits) : (s.cost.compute + s.cost.io).toNat = s.cost.total := by
  simp only [State.costFits, CostMeter.total, u64Max] at h
  rw [BitVec.toNat_add, CostMeter.total, Nat.mod_eq_of_lt (by omega)]

/-- Settles O58: the meter at the end is the path's cost more than at the start, and still fits a `U64`. -/
theorem haltedCostIsPathSum : Obligations.HaltedCostIsPathSum := by
  intro n s t _ hfits hrun hhalted
  have huntrapped : t.rs ≠ .trapped := by rw [hhalted]; exact RunState.noConfusion
  refine ⟨t.cost.compute + t.cost.io, by simp only [State.batchResult, hhalted], ?_⟩
  rw [toNat_compute_add_io (run_keeps step_keeps_costFits n s t hfits hrun), run_total huntrapped n s hrun]

end Sys2Proof.Proofs
end

section
/-! PROOFS. The BatchDriver (60_exceptions.md R213, R232, R235, R244): a batch is its programs run alone, one after the
other; how many free values were drawn before does not matter without the off-by-one defect; an endless run ends it. -/

namespace Sys2Proof.Proofs

open Sys2Proof.Machine Sys2Proof.Statements

/-! ### The counter of draws (R183; log entry 5) -/

/-- The state with the counter of draws at `d`. -/
def withDraws (d : Nat) (s : State) : State :=
  { s with draws := d }

/-- Without the off-by-one defect, the second state is the first with its counter of draws at `d`. -/
def sameButDraws (d : Nat) (s s' : State) : Prop :=
  s.par.readOffByOne = false ∧ s' = withDraws d s

/-- Without the defect no operation of an instruction looks at the counter of draws or moves it. -/
theorem congruence_sameButDraws (d : Nat) : Congruence (sameButDraws d) where
  pc := by rintro s _ ⟨_, rfl⟩; rfl
  cost := by rintro s _ ⟨_, rfl⟩; rfl
  par := by rintro s _ ⟨_, rfl⟩; rfl
  inRead := by
    rintro s _ ⟨hoff, rfl⟩
    simp [State.inRead, State.extraRead, withDraws, hoff]
  memRead := by rintro s _ ⟨_, rfl⟩ _; rfl
  raise := by rintro s _ ⟨hoff, rfl⟩ _ _; exact ⟨hoff, rfl⟩
  halt := by rintro s _ ⟨hoff, rfl⟩; exact ⟨hoff, rfl⟩
  addCompute := by rintro s _ ⟨hoff, rfl⟩ _; exact ⟨hoff, rfl⟩
  addIo := by rintro s _ ⟨hoff, rfl⟩ _; exact ⟨hoff, rfl⟩
  setReg := by rintro s _ ⟨hoff, rfl⟩ _ _; exact ⟨hoff, rfl⟩
  setPc := by rintro s _ ⟨hoff, rfl⟩ _; exact ⟨hoff, rfl⟩
  memWrite := by rintro s _ ⟨hoff, rfl⟩ _ _; exact ⟨hoff, rfl⟩
  outWrite := by rintro s _ ⟨hoff, rfl⟩ _; exact ⟨hoff, rfl⟩
  takeInput := by
    rintro s _ ⟨hoff, rfl⟩
    refine ⟨by rw [takeInput_par, hoff], ?_⟩
    unfold State.takeInput
    cases hmode : s.par.inputMode <;> simp [withDraws, State.extraRead, hoff, hmode]

theorem mapNext_mapNext (f g : State → State) (o : Host.Outcome State Fault Refusal) :
    mapNext f (mapNext g o) = mapNext (fun s => f (g s)) o := by
  cases o <;> rfl

theorem boundCheck_withDraws (d : Nat) (s : State) : (withDraws d s).boundCheck = withDraws d s.boundCheck := by
  rw [boundCheck_eq, boundCheck_eq]
  exact (apply_ite (withDraws d) (s.rs = .ready ∧ ¬ s.inBounds) (raise .outOfBounds s.pc s) s).symm

theorem pushLog_withDraws (d : Nat) (e : LogEntry) (s : State) :
    (withDraws d s).pushLog e = withDraws d (s.pushLog e) := by
  rw [pushLog_eq, pushLog_eq]
  rfl

theorem logStep_withDraws (d : Nat) (s t : State) :
    State.logStep (withDraws d s) (withDraws d t) = withDraws d (State.logStep s t) :=
  List.foldl_hom (withDraws d) fun u e => pushLog_withDraws d e u

section
variable {s : State} (hoff : s.par.readOffByOne = false) (d : Nat)
include hoff

theorem exec_withDraws (i : Instr) : exec i (withDraws d s) = mapNext (withDraws d) (exec i s) := by
  obtain ⟨t, _, ht, ht', ⟨_, rfl⟩, _⟩ :=
    exec_alike (congruence_sameButDraws d) i (s := s) ⟨hoff, rfl⟩ fun _ _ => rfl
  rw [ht, ht', mapNext_next]

theorem cycle_withDraws : cycle (withDraws d s) = mapNext (withDraws d) (cycle s) := by
  have hfetch : (withDraws d s).fetch = s.fetch := rfl
  unfold cycle
  rw [hfetch]
  cases s.fetch with
  | none => rfl
  | some e =>
    cases hd : e.decode with
    | illegal why => simp only [runDecoded, hd]; rfl
    | ok i => simp only [runDecoded, hd, exec_withDraws hoff d i, mapNext_mapNext, boundCheck_withDraws]

theorem step_withDraws : step (withDraws d s) = mapNext (withDraws d) (step s) := by
  cases hended : s.ended with
  | true =>
    rw [step, step, whileInSession_ended _ hended, whileInSession_ended _ (s := withDraws d s) hended]
    rfl
  | false =>
    by_cases hready : s.rs = .ready
    · cases hceiling : s.ceilingReached with
      | true =>
        rw [step_of_ceiling hended hready hceiling, step_of_ceiling (s := withDraws d s) hended hready hceiling]
        rfl
      | false =>
        rw [step_of_canStep s ⟨hended, hready, hceiling⟩, step_of_canStep (withDraws d s) ⟨hended, hready, hceiling⟩,
          cycle_withDraws hoff d, mapNext_mapNext, mapNext_mapNext]
        simp only [logStep_withDraws]
        rfl
    · rw [step_of_over s hended hready, step_of_over (withDraws d s) hended hready, pushLog_withDraws, mapNext_next]

end

/-! ### The run of one program -/

/-- The loop of a run from another count of draws does the same. -/
theorem batchRun_withDraws (d fuel : Nat) :
    ∀ s : State, s.par.readOffByOne = false → batchRun fuel (withDraws d s) = withDraws d (batchRun fuel s) := by
  induction fuel with
  | zero => exact fun _ _ => rfl
  | succ fuel ih =>
    intro s hoff
    have hresult : (withDraws d s).batchResult = s.batchResult := rfl
    simp only [batchRun, hresult, step_withDraws hoff d]
    cases s.batchResult with
    | some r => rfl
    | none =>
      cases hs : step s with
      | next t =>
        obtain ⟨_, _, hpar⟩ := runParametersFixed s t hs
        exact ih t (by rw [hpar, hoff])
      | fault _ => rfl
      | refused _ => rfl

/-- The loop of a run keeps the parameters (R36). -/
theorem batchRun_par (fuel : Nat) : ∀ s : State, (batchRun fuel s).par = s.par := by
  induction fuel with
  | zero => exact fun _ => rfl
  | succ fuel ih =>
    intro s
    simp only [batchRun]
    cases s.batchResult with
    | some r => rfl
    | none =>
      cases hs : step s with
      | next t =>
        obtain ⟨_, _, hpar⟩ := runParametersFixed s t hs
        exact (ih t).trans hpar
      | fault _ => rfl
      | refused _ => rfl

/-- The run is Ready after any number of steps (R244). -/
def runsForever (s : State) : Prop :=
  ∀ n : Nat, ∃ t, Host.Core.run core n s = .next t ∧ t.rs = .ready

theorem endless_iff (par : Params) (draws : Nat) (job : BatchJob) :
    endless par draws job ↔ runsForever (jobStart par draws job) := Iff.rfl

/-- Such a run has no result yet, since it can be stepped, and its step leaves such a run. -/
theorem runsForever_step {s : State} (h : runsForever s) :
    s.batchResult = none ∧ ∃ t, step s = .next t ∧ runsForever t := by
  obtain ⟨s', hs', hready⟩ := h 0
  cases next_unique (o := .next s) rfl hs'
  obtain ⟨_, hrun, _⟩ := h 1
  obtain ⟨t, hstep, _⟩ := (run_succ_eq_next 0 s _).1 hrun
  refine ⟨?_, t, hstep, fun n => ?_⟩
  · rcases step_cases s t hstep with ⟨hcan, _⟩ | ⟨_, hover, _⟩
    · exact batchResult_of_canStep s hcan
    · exact absurd hready hover
  · obtain ⟨v, hrun, hv⟩ := h (n + 1)
    obtain ⟨u, hu, hrest⟩ := (run_succ_eq_next n s v).1 hrun
    cases next_unique hstep hu
    exact ⟨v, hrest, hv⟩

/-- Such a run has no result, however long it is looked at. -/
theorem batchResult_of_runsForever (fuel : Nat) : ∀ s : State, runsForever s → (batchRun fuel s).batchResult = none := by
  induction fuel with
  | zero => exact fun s h => (runsForever_step h).1
  | succ fuel ih =>
    intro s h
    obtain ⟨hnone, t, hstep, ht⟩ := runsForever_step h
    rw [batchRun_step fuel s t hnone hstep]
    exact ih t ht

/-! ### One program alone -/

/-- The driver's reset sets the input mode itself, so what it was before does not matter. -/
theorem soloResult_queue (fuel : Nat) (par : Params) :
    soloResult fuel { par with inputMode := .queue } = soloResult fuel par := rfl

/-- Without the off-by-one defect the count of draws made before does not matter. -/
theorem soloResult_draws (fuel : Nat) {par : Params} (hoff : par.readOffByOne = false) (draws : Nat) (job : BatchJob) :
    soloResult fuel par draws job = soloResult fuel par 0 job := by
  have hstart : jobStart par draws job = withDraws draws (jobStart par 0 job) := rfl
  rw [soloResult, soloResult, hstart, batchRun_withDraws draws fuel _ hoff]
  rfl

/-- An endless program has no result (R244). -/
theorem soloResult_of_endless (fuel : Nat) {par : Params} {draws : Nat} {job : BatchJob} (h : endless par draws job) :
    soloResult fuel par draws job = none := by
  rw [soloResult, batchResult_of_runsForever fuel _ ((endless_iff par draws job).1 h), ite_self]

/-- One program of a batch on the core as it is: its result alone, from the count of draws so far, and the state its run
ends in. -/
theorem runJob_eq (fuel : Nat) (job : BatchJob) (s : State) :
    runJob fuel job s =
      (soloResult fuel s.par s.draws job).map fun r => (r, batchRun fuel (jobStart s.par s.draws job)) := by
  unfold runJob hostReset soloResult
  cases programLengthOk job.prog.length <;> rfl

/-! ### The batch -/

theorem runBatch_of_no_result {fuel : Nat} {job : BatchJob} {s : State} (jobs : List BatchJob)
    (h : soloResult fuel s.par s.draws job = none) : runBatch fuel (job :: jobs) s = [] :=
  runBatch_of_none fuel job jobs s (by rw [runJob_eq, h, Option.map_none])

/-- The driver goes on with the next program, whichever it is, from one state: under the same parameters, in queue mode. -/
theorem runBatch_of_result {fuel : Nat} {job : BatchJob} {s : State} {r : BatchResult}
    (h : soloResult fuel s.par s.draws job = some r) :
    ∃ t : State, t.par = { s.par with inputMode := .queue } ∧
      ∀ jobs, runBatch fuel (job :: jobs) s = r :: runBatch fuel jobs t :=
  ⟨batchRun fuel (jobStart s.par s.draws job), batchRun_par fuel _, fun jobs =>
    runBatch_of_some fuel job jobs s _ r (by rw [runJob_eq, h, Option.map_some])⟩

/-- The results of a batch are those of its programs alone, each with some count of draws made before it (R235). -/
theorem runBatch_eq_leadingResults (fuel : Nat) (jobs : List BatchJob) :
    ∀ s : State, ∃ draws : List Nat, draws.length = jobs.length ∧
      runBatch fuel jobs s = leadingResults (List.zipWith (soloResult fuel s.par) draws jobs) := by
  induction jobs with
  | nil => exact fun _ => ⟨[], rfl, rfl⟩
  | cons job jobs ih =>
    intro s
    cases hsolo : soloResult fuel s.par s.draws job with
    | none =>
      refine ⟨s.draws :: jobs.map fun _ => 0, by simp, ?_⟩
      rw [runBatch_of_no_result jobs hsolo, List.zipWith_cons_cons, hsolo]
      rfl
    | some r =>
      obtain ⟨t, hpar, hbatch⟩ := runBatch_of_result hsolo
      obtain ⟨draws, hlen, hrest⟩ := ih t
      refine ⟨s.draws :: draws, by simp [hlen], ?_⟩
      rw [hbatch, hrest, hpar, soloResult_queue, List.zipWith_cons_cons, hsolo]
      rfl

/-- Without the off-by-one defect every one of those counts can be 0. -/
theorem zipWith_soloResult {fuel : Nat} {par : Params} (hoff : par.readOffByOne = false) (jobs : List BatchJob) :
    ∀ draws : List Nat, draws.length = jobs.length →
      List.zipWith (soloResult fuel par) draws jobs = jobs.map (soloResult fuel par 0) := by
  induction jobs with
  | nil => exact fun _ _ => List.zipWith_nil_right
  | cons job jobs ih =>
    intro draws hlen
    obtain ⟨d, draws, rfl⟩ := List.exists_cons_of_length_eq_add_one hlen
    rw [List.zipWith_cons_cons, List.map_cons, soloResult_draws fuel hoff d job, ih draws (by simpa using hlen)]

/-- A program that runs forever has no result, and the driver goes on to none after it (R244). -/
theorem runBatch_append_endless (fuel : Nat) (job : BatchJob) (rest jobs : List BatchJob) :
    ∀ s : State, (∀ draws, endless s.par draws job) → runBatch fuel (jobs ++ job :: rest) s = runBatch fuel jobs s := by
  induction jobs with
  | nil => exact fun s hendless => runBatch_of_no_result rest (soloResult_of_endless fuel (hendless s.draws))
  | cons first jobs ih =>
    intro s hendless
    rw [List.cons_append]
    cases hsolo : soloResult fuel s.par s.draws first with
    | none => rw [runBatch_of_no_result _ hsolo, runBatch_of_no_result _ hsolo]
    | some r =>
      obtain ⟨t, hpar, hbatch⟩ := runBatch_of_result hsolo
      have hendless_next (draws : Nat) : endless t.par draws job := by
        rw [hpar]
        exact hendless draws
      rw [hbatch, hbatch, ih t hendless_next]

/-- Settles O59: each of its three clauses is an induction over the programs of the batch. -/
theorem batchRunsIndependent : Obligations.BatchRunsIndependent := by
  intro fuel jobs s
  obtain ⟨draws, hlen, hbatch⟩ := runBatch_eq_leadingResults fuel jobs s
  refine ⟨⟨draws, hlen, hbatch⟩, fun hoff => ?_, fun job rest => runBatch_append_endless fuel job rest jobs s⟩
  rw [hbatch, zipWith_soloResult hoff jobs draws hlen]

end Sys2Proof.Proofs
end

section
/-! PROOFS. The reset state (70_reset_and_hazards.md section 2, R251): it has the invariant. -/

namespace Sys2Proof.Proofs

open Sys2Proof.Machine Sys2Proof.Statements

/-- Settles O48: a state reset makes is one the host leaves before any draw, and `State.reset` is the one whose program
is empty. -/
theorem resetHasInvariant : Obligations.ResetHasInvariant := by
  have hreset (prog : List ProgEntry) (input : List Word) (init : Vector Word 8) (par : Params)
      (hlen : prog.length ≤ programMax) : (State.resetWith prog input init par).Inv :=
    inv_resetWith prog input init par 0 hlen
  exact ⟨hreset [] [] _ _ (Nat.zero_le _), hreset⟩

end Sys2Proof.Proofs
end
